-- ==== Sys2Proof/Config.lean ====
section
/-! DEFINITION. What is fixed for every newton-8080 core: the counts of spec/00_scope.md R6 and the constants of construction. The widths of R6 are
the types of Word.lean.
The spec leaves no parameter and no value open (R6: "none is left to a model argument"), so no constant here is opaque. -/

namespace Sys2Proof.Config

/-- Number of addressable byte slots (00_scope.md R6, 20_memory.md R40). -/
def memorySize : Nat := 65536

/-- Number of defined opcodes (00_scope.md R6, 30_encoding.md R62). -/
def definedOpcodes : Nat := 20

/-- The longest instruction, in bytes (30_encoding.md R60). -/
def maxInstrLength : Nat := 3

/-- The entry point: where `pc` stands after construction (70_reset_and_hazards.md R232). -/
def entryPoint : BitVec 16 := 0x0000#16

/-- What an address that the memory list does not hold reads as: memory is "zero-initialized at construction"
(10_state.md R35, R36). The value is the spec's (notes/assumptions/1.md logs the representation). -/
def unlistedByte : BitVec 8 := 0x00#8

end Sys2Proof.Config
end

