-- ==== Sys2Proof/Word.lean ====
section
/-! DEFINITION. The byte and the 16-bit word, with the reductions `u8` and `u16` of spec/00_scope.md R7. -/

namespace Sys2Proof

/-- An 8-bit value: a byte register, a memory byte, a D8 immediate (00_scope.md R6). -/
abbrev Byte := BitVec 8

/-- A 16-bit value: an address, `pc`, `sp`, a D16 or addr immediate (00_scope.md R6). -/
abbrev Word := BitVec 16

/-- `u8(x) = x mod 256`, on mathematical integers (00_scope.md R7). -/
def u8 (x : Int) : Byte := BitVec.ofInt 8 x

/-- `u16(x) = x mod 65536`, on mathematical integers, so that `u16(0 - 1) = 0xFFFF` (00_scope.md R7). -/
def u16 (x : Int) : Word := BitVec.ofInt 16 x

end Sys2Proof
end

