-- ==== Sys2Proof/Syntax.lean ====
section
/-! DEFINITION. The syntax: the instructions (one constructor per row of spec/opcode_table.json), the names of registers and
flags, and the written (assembler) form of an instruction, spec/30_encoding.md R70 and R71. -/

namespace Sys2Proof

/-- The seven byte registers `r` of 00_scope.md R8: the accumulator and the six general registers. -/
inductive Reg where
  | A | B | C | D | E | H | L
deriving DecidableEq, Repr

/-- The five flags (10_state.md R29). -/
inductive Flag where
  | CY | AC | S | Z | P
deriving DecidableEq, Repr

/-- The instructions: exactly the twenty rows of 30_encoding.md R62, in the order of the opcode bytes.
An operand is the immediate held in the instruction's own bytes (R63, R64): D8 a byte, D16 and addr a word. -/
inductive Instr where
  | nop
  | mviB (d8 : Byte)
  | mviC (d8 : Byte)
  | rrc
  | mviD (d8 : Byte)
  | mviE (d8 : Byte)
  | lxiH (d16 : Word)
  | mviH (d8 : Byte)
  | mviL (d8 : Byte)
  | sta (addr : Word)
  | dcrM
  | mviM (d8 : Byte)
  | mviA (d8 : Byte)
  | jmp (addr : Word)
  | pushB
  | call (addr : Word)
  | jnc (addr : Word)
  | pushD
  | jc (addr : Word)
  | pushH
deriving DecidableEq, Repr

/-- The three instruction formats (30_encoding.md R61). -/
inductive Format where
  | F1 | F2 | F3
deriving DecidableEq, Repr

/-- The mnemonic words of 30_encoding.md R70. -/
inductive Mnemonic where
  | NOP | JMP | CALL | JC | JNC | PUSH | MVI | STA | LXI | DCR | RRC
deriving DecidableEq, Repr

/-- The register names an operand may be written with: `B C D E H L A`, and `M` for the memory byte at HL (30_encoding.md R70). -/
inductive RegName where
  | B | C | D | E | H | L | A | M
deriving DecidableEq, Repr

/-- A written operand: a register name, a numeric literal of any size, or a label (30_encoding.md R70, R71). -/
inductive SourceOperand where
  | reg (r : RegName)
  | number (n : Nat)
  | label (name : String)
deriving DecidableEq, Repr

/-- A written instruction: its mnemonic followed by its operands (30_encoding.md R70). It may be ill-formed: WellFormed.lean checks it. -/
structure SourceInstr where
  mnemonic : Mnemonic
  operands : List SourceOperand
deriving DecidableEq, Repr

/-- A source line: an optional label at its start, an optional instruction (30_encoding.md R71). -/
structure SourceLine where
  label : Option String
  instr : Option SourceInstr
deriving DecidableEq, Repr

end Sys2Proof
end

