-- ==== Sys2Proof/Decode.lean ====
section
/-! DEFINITION. The dispatch table of spec/40_dispatch.md R91, the decoder over it (total on any bytes, rejecting by name), and,
after it, the encoder, written from the opcode map of spec/30_encoding.md R62 on its own. -/

namespace Sys2Proof

/-- `{h, l}`: the word with high-order byte `h` and low-order byte `l` (00_scope.md R7). -/
def wordOf (h l : Byte) : Word := h ++ l

/-- `v[15:8]` (00_scope.md R7). -/
def hiByte (v : Word) : Byte := v.extractLsb' 8 8

/-- `v[7:0]` (00_scope.md R7). -/
def loByte (v : Word) : Byte := v.extractLsb' 0 8

/-- The operand form of a table row, with the instruction it builds: no operand byte, one (D8), or two (D16 or addr)
(30_encoding.md R61, R63, R64). -/
inductive Build where
  | f1 (i : Instr)
  | f2 (mk : Byte → Instr)
  | f3 (mk : Word → Instr)

/-- A tagged operation descriptor: mnemonic, length, cycle cost, and the handler's instruction (40_dispatch.md R83, R91). -/
structure Descriptor where
  mnemonic : String
  length : Nat
  cycles : Nat
  build : Build

/-- The dispatch table, row by row as 40_dispatch.md R91 lists it. Which register an MVI opcode selects is the Intel 8080's
assignment (30_encoding.md R66, marked there as general knowledge): PRESUMED, notes/assumptions/5.md. -/
def dispatchTable : List (Byte × Descriptor) :=
  [ (0x00#8, ⟨"NOP", 1, 4, .f1 .nop⟩),
    (0x06#8, ⟨"MVI B,D8", 2, 7, .f2 .mviB⟩),
    (0x0E#8, ⟨"MVI C,D8", 2, 7, .f2 .mviC⟩),
    (0x0F#8, ⟨"RRC", 1, 4, .f1 .rrc⟩),
    (0x16#8, ⟨"MVI D,D8", 2, 7, .f2 .mviD⟩),
    (0x1E#8, ⟨"MVI E,D8", 2, 7, .f2 .mviE⟩),
    (0x21#8, ⟨"LXI H,D16", 3, 10, .f3 .lxiH⟩),
    (0x26#8, ⟨"MVI H,D8", 2, 7, .f2 .mviH⟩),
    (0x2E#8, ⟨"MVI L,D8", 2, 7, .f2 .mviL⟩),
    (0x32#8, ⟨"STA addr", 3, 13, .f3 .sta⟩),
    (0x35#8, ⟨"DCR M", 1, 10, .f1 .dcrM⟩),
    (0x36#8, ⟨"MVI M,D8", 2, 10, .f2 .mviM⟩),
    (0x3E#8, ⟨"MVI A,D8", 2, 7, .f2 .mviA⟩),
    (0xC3#8, ⟨"JMP addr", 3, 10, .f3 .jmp⟩),
    (0xC5#8, ⟨"PUSH B", 1, 11, .f1 .pushB⟩),
    (0xCD#8, ⟨"CALL addr", 3, 17, .f3 .call⟩),
    (0xD2#8, ⟨"JNC addr", 3, 10, .f3 .jnc⟩),
    (0xD5#8, ⟨"PUSH D", 1, 11, .f1 .pushD⟩),
    (0xDA#8, ⟨"JC addr", 3, 10, .f3 .jc⟩),
    (0xE5#8, ⟨"PUSH H", 1, 11, .f1 .pushH⟩) ]

/-- Opcode lookup: a function of the opcode byte alone (40_dispatch.md R83). -/
def lookup (op : Byte) : Option Descriptor := dispatchTable.lookup op

/-- Why bytes are no instruction. -/
inductive DecodeError where
  /-- There is no byte to decode. -/
  | noOpcode
  /-- The opcode byte is not in the table (30_encoding.md R67). -/
  | unknownOpcode (byte : Byte)
  /-- The list ends before the operand bytes of this opcode do. -/
  | truncated (opcode : Byte)
deriving DecidableEq, Repr

/-- Take the operand bytes after opcode `op`, low byte first (30_encoding.md R61, R64). -/
def Build.complete (b : Build) (op : Byte) (bytes : List Byte) : Except DecodeError (Instr × List Byte) :=
  match b, bytes with
  | .f1 i, rest => .ok (i, rest)
  | .f2 mk, d8 :: rest => .ok (mk d8, rest)
  | .f3 mk, lo :: hi :: rest => .ok (mk (wordOf hi lo), rest)
  | .f2 _, [] => .error (.truncated op)
  | .f3 _, [] => .error (.truncated op)
  | .f3 _, [_] => .error (.truncated op)

/-- The decoder: the first instruction of a list of bytes and the bytes after it. The opcode byte alone selects the row
(30_encoding.md R62, R69). -/
def decode : List Byte → Except DecodeError (Instr × List Byte)
  | [] => .error .noOpcode
  | op :: rest =>
    match lookup op with
    | none => .error (.unknownOpcode op)
    | some d => d.build.complete op rest

/-- Byte `k` of an instruction given as one number, bit 0 the least significant bit of the first byte. -/
def tableByte (w k : Nat) : Byte := BitVec.ofNat 8 (w / 256 ^ k)

/-- The bytes of an instruction of at most three bytes from the low `nbits` bits of `w`, the rest zero. -/
def tableBytes (nbits w : Nat) : List Byte :=
  let v := w % 2 ^ nbits
  [tableByte v 0, tableByte v 1, tableByte v 2]

/-- What the decoder reads from an instruction whose bits are `w`, numbered as spec/opcode_table.json numbers them. -/
def decodeTableWord (nbits w : Nat) : Option Instr :=
  match decode (tableBytes nbits w) with
  | .ok (i, _) => some i
  | .error _ => none

/-- The opcode byte of an instruction (30_encoding.md R62). -/
def Instr.opcode : Instr → Byte
  | .nop => 0b00000000#8
  | .mviB _ => 0b00000110#8
  | .mviC _ => 0b00001110#8
  | .rrc => 0b00001111#8
  | .mviD _ => 0b00010110#8
  | .mviE _ => 0b00011110#8
  | .lxiH _ => 0b00100001#8
  | .mviH _ => 0b00100110#8
  | .mviL _ => 0b00101110#8
  | .sta _ => 0b00110010#8
  | .dcrM => 0b00110101#8
  | .mviM _ => 0b00110110#8
  | .mviA _ => 0b00111110#8
  | .jmp _ => 0b11000011#8
  | .pushB => 0b11000101#8
  | .call _ => 0b11001101#8
  | .jnc _ => 0b11010010#8
  | .pushD => 0b11010101#8
  | .jc _ => 0b11011010#8
  | .pushH => 0b11100101#8

/-- The bytes of a 16-bit immediate, low byte first (30_encoding.md R61, R64). -/
def d16Bytes (v : Word) : List Byte := [loByte v, hiByte v]

/-- The operand bytes of an instruction (30_encoding.md R61). -/
def Instr.operandBytes : Instr → List Byte
  | .nop => []
  | .mviB d8 => [d8]
  | .mviC d8 => [d8]
  | .rrc => []
  | .mviD d8 => [d8]
  | .mviE d8 => [d8]
  | .lxiH d16 => d16Bytes d16
  | .mviH d8 => [d8]
  | .mviL d8 => [d8]
  | .sta addr => d16Bytes addr
  | .dcrM => []
  | .mviM d8 => [d8]
  | .mviA d8 => [d8]
  | .jmp addr => d16Bytes addr
  | .pushB => []
  | .call addr => d16Bytes addr
  | .jnc addr => d16Bytes addr
  | .pushD => []
  | .jc addr => d16Bytes addr
  | .pushH => []

/-- The encoder: the bytes of an instruction, at rising addresses (30_encoding.md R61). -/
def encode (i : Instr) : List Byte := i.opcode :: i.operandBytes

/-- The format of an instruction (30_encoding.md R62). -/
def Instr.format : Instr → Format
  | .nop | .rrc | .dcrM | .pushB | .pushD | .pushH => .F1
  | .mviB _ | .mviC _ | .mviD _ | .mviE _ | .mviH _ | .mviL _ | .mviA _ | .mviM _ => .F2
  | .jmp _ | .call _ | .jc _ | .jnc _ | .sta _ | .lxiH _ => .F3

/-- The length of a format in bytes (30_encoding.md R61). -/
def Format.length : Format → Nat
  | .F1 => 1
  | .F2 => 2
  | .F3 => 3

/-- The length of an instruction in bytes (30_encoding.md R60, R62). -/
def Instr.length (i : Instr) : Nat := i.format.length

end Sys2Proof
end

