-- ==== Sys2Proof/Machine/State.lean ====
section
/-! DEFINITION. The state, as plain data, and the reasons a step can stop. -/

namespace Sys2Proof.Machine

/-- Memory: the bytes that differ from what an unlisted address reads as, in one canonical form (Ops.lean: `Memory.wf`).
20_memory.md R40; the representation is notes/assumptions/1.md. -/
abbrev Memory := List Host.Cell

/-- The whole architectural state, spec/10_state.md R20: "exactly the following, and nothing else". -/
structure State where
  /-- the accumulator (R26) -/
  A : Byte
  /-- general register, high byte of BC (R22, R24) -/
  B : Byte
  /-- general register, low byte of BC (R22, R24) -/
  C : Byte
  /-- general register, high byte of DE (R22, R24) -/
  D : Byte
  /-- general register, low byte of DE (R22, R24) -/
  E : Byte
  /-- general register, high byte of HL (R22, R23) -/
  H : Byte
  /-- general register, low byte of HL (R22, R23) -/
  L : Byte
  /-- program counter (R27) -/
  pc : Word
  /-- stack pointer, at the lowest-addressed occupied stack byte (R28) -/
  sp : Word
  /-- Carry (R29, R30) -/
  CY : Bool
  /-- Auxiliary-Carry (R29, R30) -/
  AC : Bool
  /-- Sign (R29, R30) -/
  S : Bool
  /-- Zero (R29, R30) -/
  Z : Bool
  /-- Parity, reserved (R29, R31) -/
  P : Bool
  /-- the 65536 bytes (R35) -/
  mem : Memory
deriving DecidableEq, Repr

/-- The faults. The core has exactly one error kind (60_exceptions.md R200). -/
inductive Fault where
  /-- Raised by the dispatcher alone, at the fetch of an opcode byte outside the table (60_exceptions.md R200, R201).
  SAFE: the run ends here, where some driver might go on (notes/assumptions/7.md). -/
  | unknownOpcode (byte : Byte) (address : Word)
deriving DecidableEq, Repr

/-- The refusals. No instruction raises one. -/
inductive Refusal where
  /-- Answered by an arm of `exec` whose instruction has no meaning yet; no arm is one now. SAFE. -/
  | notModelled (mnemonic : String)
  /-- Answered by the memory access unit on a read of a width other than 1 or 2 (20_memory.md R41: "a model refuses any
  other n"); no instruction issues one. SAFE. -/
  | readWidth (n : Nat)
deriving DecidableEq, Repr

/-- The state after construction, spec/10_state.md R36: every field zero, and no byte of memory other than zero.
Construction is the only reset (70_reset_and_hazards.md R230). -/
def State.reset : State where
  A := 0x00#8
  B := 0x00#8
  C := 0x00#8
  D := 0x00#8
  E := 0x00#8
  H := 0x00#8
  L := 0x00#8
  pc := Config.entryPoint
  sp := 0x0000#16
  CY := false
  AC := false
  S := false
  Z := false
  P := false
  mem := []

end Sys2Proof.Machine
end

