-- ==== Sys2Proof/Machine/Ops.lean ====
section
/-! DEFINITION. The named operations over memory and registers: the memory access unit (spec/20_memory.md), register access
(spec/00_scope.md R8), the program counter, the push primitive (spec/42_stack.md R130), and the raising of the one exception
(spec/60_exceptions.md). -/

namespace Sys2Proof.Machine

/-! ### Memory as a list of cells -/

/-- The byte at address `k` of a cell list: that of the first cell with this address, or the unlisted byte. -/
def Memory.lookupAt : Memory → Nat → Byte
  | [], _ => Config.unlistedByte
  | (a, v) :: rest, k => if a = k then v else Memory.lookupAt rest k

/-- Put a cell before the first cell with a higher address. -/
def Memory.insertCell (c : Host.Cell) : Memory → Memory
  | [] => [c]
  | d :: rest => if c.1 < d.1 then c :: d :: rest else d :: Memory.insertCell c rest

/-- The cells at addresses other than `k`. -/
def Memory.eraseAt : Memory → Nat → Memory
  | [], _ => []
  | (a, v) :: rest, k => if a = k then Memory.eraseAt rest k else (a, v) :: Memory.eraseAt rest k

/-- `mem[a]` (00_scope.md R8). -/
def Memory.read (m : Memory) (a : Word) : Byte := Memory.lookupAt m a.toNat

/-- `mem[a] <- v` (00_scope.md R8). Writing the unlisted byte removes the cell, so that equal memories are equal lists. -/
def Memory.write (m : Memory) (a : Word) (v : Byte) : Memory :=
  if v = Config.unlistedByte then Memory.eraseAt m a.toNat
  else Memory.insertCell (a.toNat, v) (Memory.eraseAt m a.toNat)

/-- The cells have strictly rising addresses from `low` on, all inside the 65536 bytes, none holding the unlisted byte. -/
def Memory.wfFrom (low : Nat) : Memory → Bool
  | [] => true
  | (a, v) :: rest =>
    decide (low ≤ a) && decide (a < Config.memorySize) && decide (v ≠ Config.unlistedByte) && Memory.wfFrom (a + 1) rest

/-- The canonical form of memory (notes/assumptions/1.md). -/
def Memory.wf (m : Memory) : Bool := Memory.wfFrom 0 m

/-! ### The memory access unit -/

/-- `MemRead(a, 1)` (20_memory.md R41). -/
def State.readByte (s : State) (a : Word) : Byte := s.mem.read a

/-- `MemRead(a, 2) = {mem[u16(a + 1)], mem[u16(a)]}`, little-endian, the address wrapping (20_memory.md R41, R45, R47). -/
def State.readWord (s : State) (a : Word) : Word := wordOf (s.readByte (a + 1)) (s.readByte a)

/-- `MemWrite(a, 1, v)` (20_memory.md R42). -/
def State.writeByte (s : State) (a : Word) (v : Byte) : State := { s with mem := s.mem.write a v }

/-- D0's `readBytes(n, offset)` at any offset, read modulo 2^16: one byte or two, any other width refused (20_memory.md R41). -/
def State.readBytes (s : State) (n : Nat) (offset : Int) : Except Refusal Nat :=
  match n with
  | 1 => .ok (s.readByte (u16 offset)).toNat
  | 2 => .ok (s.readWord (u16 offset)).toNat
  | _ => .error (.readWidth n)

/-- D0's `writeBytes(offset, value)`: "writes a single byte `value & 0xFF` at `offset`" (20_memory.md R42). -/
def State.writeBytes (s : State) (offset value : Int) : State := s.writeByte (u16 offset) (u8 value)

/-! ### Registers -/

/-- `x[r]` (00_scope.md R8). -/
def State.getReg (s : State) : Reg → Byte
  | .A => s.A
  | .B => s.B
  | .C => s.C
  | .D => s.D
  | .E => s.E
  | .H => s.H
  | .L => s.L

/-- `x[r] <- v` (00_scope.md R8). No register is hardwired (10_state.md R22). -/
def State.setReg (s : State) (r : Reg) (v : Byte) : State :=
  match r with
  | .A => { s with A := v }
  | .B => { s with B := v }
  | .C => { s with C := v }
  | .D => { s with D := v }
  | .E => { s with E := v }
  | .H => { s with H := v }
  | .L => { s with L := v }

/-- A flag's bit (10_state.md R29). -/
def State.getFlag (s : State) : Flag → Bool
  | .CY => s.CY
  | .AC => s.AC
  | .S => s.S
  | .Z => s.Z
  | .P => s.P

/-- Write one flag (10_state.md R29). -/
def State.setFlag (s : State) (f : Flag) (v : Bool) : State :=
  match f with
  | .CY => { s with CY := v }
  | .AC => { s with AC := v }
  | .S => { s with S := v }
  | .Z => { s with Z := v }
  | .P => { s with P := v }

/-! ### Program counter and stack -/

/-- `pc <- u16(pc + len)` (40_dispatch.md R82); the wrap is notes/assumptions/2.md. -/
def State.advancePc (s : State) (len : Nat) : State := { s with pc := s.pc + BitVec.ofNat 16 len }

/-- `pc <- target` (00_scope.md R10). -/
def State.jumpTo (s : State) (target : Word) : State := { s with pc := target }

/-- `sp <- v`. -/
def State.setSp (s : State) (v : Word) : State := { s with sp := v }

/-- `PushPair(hi, lo)`: the high-order byte at `sp - 1`, the low-order byte at `sp - 2`, then `sp` lowered by two, all modulo
2^16 (42_stack.md R130; 90_conflicts.md C1). -/
def State.pushPair (s : State) (hi lo : Byte) : State :=
  ((s.writeByte (s.sp - 1) hi).writeByte (s.sp - 2) lo).setSp (s.sp - 2)

/-! ### The one exception -/

/-- `raise UnknownOpcode(byte, address)`: the step ends with the error record and no state is written, no state saved, no mode
switched, nothing pushed and nothing jumped to (00_scope.md R10; 60_exceptions.md R200, R203, R204). There is no return from it
(R205). -/
def raiseUnknownOpcode (byte : Byte) (address : Word) : Host.Outcome State Fault Refusal :=
  .fault (.unknownOpcode byte address)

end Sys2Proof.Machine
end

