-- ==== Sys2Proof/Machine/Flags.lean ====
section
/-! DEFINITION. The flag computations: DCR M's (spec/44_arith_logic.md R181) and RRC's (R182). -/

namespace Sys2Proof.Machine

/-- AC after DCR M: 1 if `res & 0x0F == 0`, else 0 (44_arith_logic.md R181; 90_conflicts.md C2; notes/assumptions/6.md). -/
def dcrAuxCarry (res : Byte) : Bool := (res &&& 0x0F#8) == 0x00#8

/-- Z after DCR M: 1 if `res == 0`, else 0 (44_arith_logic.md R181). -/
def dcrZero (res : Byte) : Bool := res == 0x00#8

/-- S after DCR M: `res[7]` (44_arith_logic.md R181). -/
def dcrSign (res : Byte) : Bool := res.getLsbD 7

/-- DCR M's flag policy: AC, Z and S written on every execution, CY and P not (44_arith_logic.md R180, R181;
notes/assumptions/4.md). -/
def State.setDcrFlags (s : State) (res : Byte) : State :=
  { s with AC := dcrAuxCarry res, Z := dcrZero res, S := dcrSign res }

/-- CY after RRC: bit 0 of the old accumulator, as a strict bit (44_arith_logic.md R182; 90_conflicts.md C7). -/
def rrcCarry (old : Byte) : Bool := old.getLsbD 0

end Sys2Proof.Machine
end

