-- ==== Sys2Proof/Machine/Operands.lean ====
section
/-! DEFINITION. The operand forms: immediates in the instruction's own bytes (spec/30_encoding.md R63, R64), the register
pairs (spec/10_state.md R23, R24), the memory byte at HL, and the two branch conditions (spec/41_control.md R103, R104). -/

namespace Sys2Proof.Machine

/-- `HL = {H, L}`, a view (10_state.md R23). -/
def State.HL (s : State) : Word := wordOf s.H s.L

/-- `BC = {B, C}`, a view (10_state.md R24). -/
def State.BC (s : State) : Word := wordOf s.B s.C

/-- `DE = {D, E}`, a view (10_state.md R24). -/
def State.DE (s : State) : Word := wordOf s.D s.E

/-- Write the pair HL: H gets bits 15:8, L bits 7:0 (10_state.md R23, 43_data_transfer.md R160). -/
def State.setHL (s : State) (v : Word) : State := (s.setReg .H (hiByte v)).setReg .L (loByte v)

/-- The operand `M`: the memory byte at HL (00_scope.md R12). -/
def State.readM (s : State) : Byte := s.readByte s.HL

/-- Write the operand `M`. -/
def State.writeM (s : State) (v : Byte) : State := s.writeByte s.HL v

/-- The D8 immediate, `MemRead(u16(pc - 1), 1)` with `pc` already advanced (30_encoding.md R63). -/
def State.immediate8 (s : State) : Byte := s.readByte (s.pc - 1)

/-- The D16 or addr immediate, `MemRead(u16(pc - 2), 2)` with `pc` already advanced (30_encoding.md R64). -/
def State.immediate16 (s : State) : Word := s.readWord (s.pc - 2)

/-- The instruction of a table row with its operand read "relative to the advanced program counter" (40_dispatch.md R84). The
read comes before everything the handler does (20_memory.md R53), so it is made here, once (notes/assumptions/8.md). -/
def operandFetched (b : Build) (s : State) : Instr :=
  match b with
  | .f1 i => i
  | .f2 mk => mk s.immediate8
  | .f3 mk => mk s.immediate16

/-- The condition of JC: CY = 1 (41_control.md R103). -/
def State.carrySet (s : State) : Bool := s.CY

/-- The condition of JNC: CY = 0 (41_control.md R104). -/
def State.carryClear (s : State) : Bool := !s.CY

end Sys2Proof.Machine
end

