-- ==== Sys2Proof/Machine/ArithLogic.lean ====
section
/-! DEFINITION. Arithmetic and logic instructions, spec/44_arith_logic.md. -/

namespace Sys2Proof.Machine

/-- `u8(old - 1)` (44_arith_logic.md R180, R183). -/
def decrement (old : Byte) : Byte := old - 1

/-- `u8((old >> 1) | ((old & 1) << 7))` (44_arith_logic.md R182). -/
def rotateRight (old : Byte) : Byte := (old >>> 1) ||| ((old &&& 0x01#8) <<< 7)

/-- DCR M (44_arith_logic.md R180). -/
def execDcrM (s : State) : Host.Outcome State Fault Refusal :=
  .next ((s.writeM (decrement s.readM)).setDcrFlags (decrement s.readM))

/-- RRC (44_arith_logic.md R182). -/
def execRrc (s : State) : Host.Outcome State Fault Refusal :=
  .next ((s.setFlag .CY (rrcCarry s.A)).setReg .A (rotateRight s.A))

end Sys2Proof.Machine
end

