-- ==== Sys2Proof/Machine/Control.lean ====
section
/-! DEFINITION. Control instructions, spec/41_control.md. The state given to a meaning is the one the dispatcher has already
advanced (40_dispatch.md R82), so `s.pc` is the address after the instruction. -/

namespace Sys2Proof.Machine

/-- NOP (41_control.md R100). -/
def execNop (s : State) : Host.Outcome State Fault Refusal :=
  .next s

/-- JMP addr (41_control.md R101). -/
def execJmp (addr : Word) (s : State) : Host.Outcome State Fault Refusal :=
  .next (s.jumpTo addr)

/-- CALL addr: push the advanced `pc`, then jump (41_control.md R102). -/
def execCall (addr : Word) (s : State) : Host.Outcome State Fault Refusal :=
  .next ((s.pushPair (hiByte s.pc) (loByte s.pc)).jumpTo addr)

/-- JC addr (41_control.md R103). -/
def execJc (addr : Word) (s : State) : Host.Outcome State Fault Refusal :=
  .next (if s.carrySet then s.jumpTo addr else s)

/-- JNC addr (41_control.md R104). -/
def execJnc (addr : Word) (s : State) : Host.Outcome State Fault Refusal :=
  .next (if s.carryClear then s.jumpTo addr else s)

end Sys2Proof.Machine
end

