-- ==== Sys2Proof/Machine/DataTransfer.lean ====
section
/-! DEFINITION. Data-transfer instructions, spec/43_data_transfer.md. -/

namespace Sys2Proof.Machine

/-- MVI r,D8, the family: `x[r] <- imm` (43_data_transfer.md R150). -/
def moveImmediate (r : Reg) (d8 : Byte) (s : State) : Host.Outcome State Fault Refusal :=
  .next (s.setReg r d8)

/-- MVI B,D8 (43_data_transfer.md R151). -/
def execMviB (d8 : Byte) (s : State) : Host.Outcome State Fault Refusal :=
  moveImmediate .B d8 s

/-- MVI C,D8 (43_data_transfer.md R152). -/
def execMviC (d8 : Byte) (s : State) : Host.Outcome State Fault Refusal :=
  moveImmediate .C d8 s

/-- MVI D,D8 (43_data_transfer.md R153). -/
def execMviD (d8 : Byte) (s : State) : Host.Outcome State Fault Refusal :=
  moveImmediate .D d8 s

/-- MVI E,D8 (43_data_transfer.md R154). -/
def execMviE (d8 : Byte) (s : State) : Host.Outcome State Fault Refusal :=
  moveImmediate .E d8 s

/-- MVI H,D8 (43_data_transfer.md R155). -/
def execMviH (d8 : Byte) (s : State) : Host.Outcome State Fault Refusal :=
  moveImmediate .H d8 s

/-- MVI L,D8 (43_data_transfer.md R156). -/
def execMviL (d8 : Byte) (s : State) : Host.Outcome State Fault Refusal :=
  moveImmediate .L d8 s

/-- MVI A,D8 (43_data_transfer.md R157). -/
def execMviA (d8 : Byte) (s : State) : Host.Outcome State Fault Refusal :=
  moveImmediate .A d8 s

/-- MVI M,D8: `MemWrite(HL, 1, imm)` (43_data_transfer.md R158). -/
def execMviM (d8 : Byte) (s : State) : Host.Outcome State Fault Refusal :=
  .next (s.writeM d8)

/-- STA addr: `MemWrite(addr, 1, A)` (43_data_transfer.md R159). -/
def execSta (addr : Word) (s : State) : Host.Outcome State Fault Refusal :=
  .next (s.writeByte addr s.A)

/-- LXI H,D16: H gets bits 15:8, L bits 7:0 (43_data_transfer.md R160). -/
def execLxiH (d16 : Word) (s : State) : Host.Outcome State Fault Refusal :=
  .next (s.setHL d16)

end Sys2Proof.Machine
end

