-- ==== Sys2Proof/Machine/Stack.lean ====
section
/-! DEFINITION. Stack instructions, spec/42_stack.md. -/

namespace Sys2Proof.Machine

/-- PUSH B: push (B, C) (42_stack.md R131). -/
def execPushB (s : State) : Host.Outcome State Fault Refusal :=
  .next (s.pushPair s.B s.C)

/-- PUSH D: push (D, E) (42_stack.md R132). -/
def execPushD (s : State) : Host.Outcome State Fault Refusal :=
  .next (s.pushPair s.D s.E)

/-- PUSH H: push (H, L) (42_stack.md R133). -/
def execPushH (s : State) : Host.Outcome State Fault Refusal :=
  .next (s.pushPair s.H s.L)

end Sys2Proof.Machine
end

