-- ==== Sys2Proof/Machine/Dispatch.lean ====
section
/-! DEFINITION. The handler set: one arm per instruction (spec/40_dispatch.md R84). -/

namespace Sys2Proof.Machine

def exec (i : Instr) (s : State) : Host.Outcome State Fault Refusal :=
  match i with
  | .nop => Sys2Proof.Machine.execNop s
  | .mviB d8 => Sys2Proof.Machine.execMviB d8 s
  | .mviC d8 => Sys2Proof.Machine.execMviC d8 s
  | .rrc => Sys2Proof.Machine.execRrc s
  | .mviD d8 => Sys2Proof.Machine.execMviD d8 s
  | .mviE d8 => Sys2Proof.Machine.execMviE d8 s
  | .lxiH d16 => Sys2Proof.Machine.execLxiH d16 s
  | .mviH d8 => Sys2Proof.Machine.execMviH d8 s
  | .mviL d8 => Sys2Proof.Machine.execMviL d8 s
  | .sta addr => Sys2Proof.Machine.execSta addr s
  | .dcrM => Sys2Proof.Machine.execDcrM s
  | .mviM d8 => Sys2Proof.Machine.execMviM d8 s
  | .mviA d8 => Sys2Proof.Machine.execMviA d8 s
  | .jmp addr => Sys2Proof.Machine.execJmp addr s
  | .pushB => Sys2Proof.Machine.execPushB s
  | .call addr => Sys2Proof.Machine.execCall addr s
  | .jnc addr => Sys2Proof.Machine.execJnc addr s
  | .pushD => Sys2Proof.Machine.execPushD s
  | .jc addr => Sys2Proof.Machine.execJc addr s
  | .pushH => Sys2Proof.Machine.execPushH s

end Sys2Proof.Machine
end

