-- ==== Sys2Proof/Machine/Processor.lean ====
section
/-! DEFINITION. The dispatcher, spec/40_dispatch.md: fetch, lookup, advance, handler; and `executeNext`, the step with the
output it reports to its caller. -/

namespace Sys2Proof.Machine

/-- The opcode fetch, `MemRead(pc, 1)` (40_dispatch.md R81). -/
def State.fetchOpcode (s : State) : Byte := s.readByte s.pc

/-- Advance, then run the one handler of table row `d`: `pc <- u16(a + len)` comes BEFORE the handler (40_dispatch.md R82, R84). -/
def runHandler (d : Descriptor) (s : State) : Host.Outcome State Fault Refusal :=
  exec (operandFetched d.build (s.advancePc d.length)) (s.advancePc d.length)

/-- One step, 40_dispatch.md R81: fetch the opcode byte, look it up, raise `UnknownOpcode` on a byte outside the table (R86),
else run the row's handler. -/
def dispatchNext (s : State) : Host.Outcome State Fault Refusal :=
  match lookup s.fetchOpcode with
  | none => raiseUnknownOpcode s.fetchOpcode s.pc
  | some d => runHandler d s

/-- What a call of `executeNext` returns to its caller (40_dispatch.md R80). -/
inductive StepReply where
  /-- `Ok(cycles)`: one instruction completed, at this cycle cost -/
  | ok (cycles : Nat)
  /-- `Err(UnknownOpcode)` with its record, the byte and the address -/
  | err (f : Fault)
  /-- the model has no meaning here: no instruction of the table gives this reply -/
  | refused (r : Refusal)
deriving DecidableEq, Repr

/-- The reply to an outcome, given the row's cycle cost, and the state after it: a failed step leaves the state `s` it began in
(40_dispatch.md R80, R85, R86; notes/assumptions/13.md). -/
def replyTo (s : State) (cycles : Nat) : Host.Outcome State Fault Refusal → State × StepReply
  | .next t => (t, .ok cycles)
  | .fault f => (s, .err f)
  | .refused r => (s, .refused r)

/-- D0's `executeNext()`, also named `runNextInstruction`: the state after the step and the reply (40_dispatch.md R80, R81). -/
def executeNext (s : State) : State × StepReply :=
  match lookup s.fetchOpcode with
  | none => (s, .err (.unknownOpcode s.fetchOpcode s.pc))
  | some d => replyTo s d.cycles (runHandler d s)

/-- Store bytes at rising addresses from `a`, wrapping (30_encoding.md R61). -/
def State.placeBytes (s : State) (a : Word) : List Byte → State
  | [] => s
  | b :: rest => (s.writeByte a b).placeBytes (a + 1) rest

end Sys2Proof.Machine
end

