-- ==== Sys2Proof/Machine/Step.lean ====
section
/-! DEFINITION. The step of the machine and the placing of an instruction where it fetches. -/

namespace Sys2Proof.Machine

/-- One step (40_dispatch.md R81; Processor.lean). -/
def step (s : State) : Host.Outcome State Fault Refusal := dispatchNext s

/-- `s` with the instruction whose bits are `w` (numbered as spec/opcode_table.json numbers them) at the program counter.
A program is loaded from outside, before the first step (70_reset_and_hazards.md R234, R236; notes/assumptions/9.md). -/
def State.withFetchWord (s : State) (nbits w : Nat) : State := s.placeBytes s.pc (tableBytes nbits w)

end Sys2Proof.Machine
end

