-- ==== Sys2Proof/WellFormed.lean ====
section
/-! DEFINITION. Which written instructions stand for an instruction (spec/30_encoding.md R70 to R72).
An `Instr` needs no check of its own: its operands carry their widths in their types, and "the operand bytes of F2 and F3
instructions may hold any value; none is reserved" (30_encoding.md R68). The checks are on the written form, where a literal is
a natural number of any size: "A D8 operand must be in 0..0xFF and a D16/addr operand in 0..0xFFFF; anything else does not
assemble" (R71). -/

namespace Sys2Proof

/-- A D8 literal is in range (30_encoding.md R71). -/
def d8InRange (n : Nat) : Bool := n ≤ 0xFF

/-- A D16 or addr literal is in range (30_encoding.md R71). -/
def d16InRange (n : Nat) : Bool := n ≤ 0xFFFF

/-- An addr operand: a literal in range, or a label that the program defines (30_encoding.md R71). -/
def addrOperandOk (defined : String → Bool) : SourceOperand → Bool
  | .number n => d16InRange n
  | .label name => defined name
  | .reg _ => false

/-- The names that PUSH takes: `B`, `D`, `H`, for the pairs BC, DE, HL (30_encoding.md R70). -/
def pushNameOk : RegName → Bool
  | .B | .D | .H => true
  | .C | .E | .L | .A | .M => false

/-- The written instruction is one of the forms of 30_encoding.md R70 with operands in range (R71). -/
def SourceInstr.wellFormed (defined : String → Bool) (i : SourceInstr) : Bool :=
  match i.mnemonic, i.operands with
  | .NOP, [] => true
  | .RRC, [] => true
  | .DCR, [.reg .M] => true
  | .PUSH, [.reg r] => pushNameOk r
  | .MVI, [.reg _, .number n] => d8InRange n
  | .LXI, [.reg .H, .number n] => d16InRange n
  | .STA, [x] => addrOperandOk defined x
  | .JMP, [x] => addrOperandOk defined x
  | .CALL, [x] => addrOperandOk defined x
  | .JC, [x] => addrOperandOk defined x
  | .JNC, [x] => addrOperandOk defined x
  | _, _ => false

end Sys2Proof
end

