-- ==== Sys2Proof/Machine/Assembler.lean ====
section
/-! DEFINITION. The assembler syntax of spec/30_encoding.md R70 and R71 (notation only: 92_eei_decisions.md D10): from a written
instruction to an `Instr` and back, and from a program's text to its bytes. What R71 does not say (spaces, what an identifier
is, two equal labels) is notes/assumptions/12.md. -/

namespace Sys2Proof

/-! ### Written instructions -/

/-- The value of an addr operand: a literal in range, or the 16-bit address of a label (30_encoding.md R71). -/
def addrValue (labels : String → Option Word) : SourceOperand → Option Word
  | .number n => if d16InRange n then some (BitVec.ofNat 16 n) else none
  | .label name => labels name
  | .reg _ => none

/-- `MVI r,D8` or `MVI M,D8` (30_encoding.md R70). -/
def mviOf (r : RegName) (d8 : Byte) : Instr :=
  match r with
  | .B => .mviB d8
  | .C => .mviC d8
  | .D => .mviD d8
  | .E => .mviE d8
  | .H => .mviH d8
  | .L => .mviL d8
  | .A => .mviA d8
  | .M => .mviM d8

/-- `PUSH B`, `PUSH D`, `PUSH H` (30_encoding.md R70). -/
def pushOf : RegName → Option Instr
  | .B => some .pushB
  | .D => some .pushD
  | .H => some .pushH
  | .C | .E | .L | .A | .M => none

/-- The instruction a written one stands for; anything else "does not assemble" (30_encoding.md R70, R71). -/
def SourceInstr.assemble (labels : String → Option Word) (i : SourceInstr) : Option Instr :=
  match i.mnemonic, i.operands with
  | .NOP, [] => some .nop
  | .RRC, [] => some .rrc
  | .DCR, [.reg .M] => some .dcrM
  | .PUSH, [.reg r] => pushOf r
  | .MVI, [.reg r, .number n] => if d8InRange n then some (mviOf r (BitVec.ofNat 8 n)) else none
  | .LXI, [.reg .H, .number n] => if d16InRange n then some (.lxiH (BitVec.ofNat 16 n)) else none
  | .STA, [x] => (addrValue labels x).map .sta
  | .JMP, [x] => (addrValue labels x).map .jmp
  | .CALL, [x] => (addrValue labels x).map .call
  | .JC, [x] => (addrValue labels x).map .jc
  | .JNC, [x] => (addrValue labels x).map .jnc
  | _, _ => none

/-- How an instruction is written (30_encoding.md R70). -/
def Instr.source : Instr → SourceInstr
  | .nop => ⟨.NOP, []⟩
  | .mviB d8 => ⟨.MVI, [.reg .B, .number d8.toNat]⟩
  | .mviC d8 => ⟨.MVI, [.reg .C, .number d8.toNat]⟩
  | .rrc => ⟨.RRC, []⟩
  | .mviD d8 => ⟨.MVI, [.reg .D, .number d8.toNat]⟩
  | .mviE d8 => ⟨.MVI, [.reg .E, .number d8.toNat]⟩
  | .lxiH d16 => ⟨.LXI, [.reg .H, .number d16.toNat]⟩
  | .mviH d8 => ⟨.MVI, [.reg .H, .number d8.toNat]⟩
  | .mviL d8 => ⟨.MVI, [.reg .L, .number d8.toNat]⟩
  | .sta addr => ⟨.STA, [.number addr.toNat]⟩
  | .dcrM => ⟨.DCR, [.reg .M]⟩
  | .mviM d8 => ⟨.MVI, [.reg .M, .number d8.toNat]⟩
  | .mviA d8 => ⟨.MVI, [.reg .A, .number d8.toNat]⟩
  | .jmp addr => ⟨.JMP, [.number addr.toNat]⟩
  | .pushB => ⟨.PUSH, [.reg .B]⟩
  | .call addr => ⟨.CALL, [.number addr.toNat]⟩
  | .jnc addr => ⟨.JNC, [.number addr.toNat]⟩
  | .pushD => ⟨.PUSH, [.reg .D]⟩
  | .jc addr => ⟨.JC, [.number addr.toNat]⟩
  | .pushH => ⟨.PUSH, [.reg .H]⟩

/-! ### Programs -/

/-- The length of a written instruction: the mnemonic fixes the format (30_encoding.md R61, R70). -/
def Mnemonic.format : Mnemonic → Format
  | .NOP | .PUSH | .DCR | .RRC => .F1
  | .MVI => .F2
  | .JMP | .CALL | .JC | .JNC | .STA | .LXI => .F3

/-- The bytes a line takes. -/
def SourceLine.length (l : SourceLine) : Nat :=
  match l.instr with
  | none => 0
  | some i => i.mnemonic.format.length

/-- The labels of a program with their addresses, the first line at `origin` (30_encoding.md R71). -/
def labelTable (origin : Word) : List SourceLine → List (String × Word)
  | [] => []
  | l :: rest =>
    let after := labelTable (origin + BitVec.ofNat 16 l.length) rest
    match l.label with
    | none => after
    | some name => (name, origin) :: after

/-- No name stands twice. -/
def labelsDistinct : List (String × Word) → Bool
  | [] => true
  | (name, _) :: rest => (rest.lookup name).isNone && labelsDistinct rest

/-- The bytes of the lines, in order; none if one of them does not assemble. -/
def assembleLines (labels : String → Option Word) : List SourceLine → Option (List Byte)
  | [] => some []
  | l :: rest =>
    match l.instr, assembleLines labels rest with
    | _, none => none
    | none, some bytes => some bytes
    | some i, some bytes => (i.assemble labels).map fun instr => encode instr ++ bytes

/-- The bytes of a program that starts at `origin`. -/
def assembleProgram (origin : Word) (lines : List SourceLine) : Option (List Byte) :=
  let table := labelTable origin lines
  if labelsDistinct table then assembleLines (fun name => table.lookup name) lines else none

/-! ### Text -/

/-- Cut a text at every `sep`. -/
def splitAtChar (sep : Char) : List Char → List (List Char)
  | [] => [[]]
  | c :: rest =>
    match splitAtChar sep rest with
    | [] => [[c]]
    | w :: ws => if c = sep then [] :: w :: ws else (c :: w) :: ws

/-- A blank within a line. -/
def isBlank (c : Char) : Bool := c = ' ' || c = '\t' || c = '\r'

/-- Drop the blanks at both ends. -/
def trimBlanks (w : List Char) : List Char := ((w.dropWhile isBlank).reverse.dropWhile isBlank).reverse

/-- The value of a hexadecimal digit. -/
def hexDigit (c : Char) : Option Nat :=
  if '0' ≤ c && c ≤ '9' then some (c.toNat - '0'.toNat)
  else if 'A' ≤ c && c ≤ 'F' then some (c.toNat - 'A'.toNat + 10)
  else if 'a' ≤ c && c ≤ 'f' then some (c.toNat - 'a'.toNat + 10)
  else none

/-- The value of hexadecimal digits, the most significant first. -/
def hexValue (acc : Nat) : List Char → Option Nat
  | [] => some acc
  | c :: rest =>
    match hexDigit c with
    | none => none
    | some d => hexValue (acc * 16 + d) rest

/-- A letter or an underscore. -/
def isIdentStart (c : Char) : Bool := ('A' ≤ c && c ≤ 'Z') || ('a' ≤ c && c ≤ 'z') || c = '_'

/-- An identifier: a letter or underscore, then letters, digits and underscores. -/
def isIdent : List Char → Bool
  | [] => false
  | c :: rest => isIdentStart c && rest.all fun d => isIdentStart d || ('0' ≤ d && d ≤ '9')

/-- A mnemonic word (30_encoding.md R70). -/
def readMnemonic (w : List Char) : Option Mnemonic :=
  [("NOP", Mnemonic.NOP), ("JMP", .JMP), ("CALL", .CALL), ("JC", .JC), ("JNC", .JNC), ("PUSH", .PUSH), ("MVI", .MVI),
    ("STA", .STA), ("LXI", .LXI), ("DCR", .DCR), ("RRC", .RRC)].lookup (String.ofList w)

/-- A register name (30_encoding.md R70). -/
def readRegName (w : List Char) : Option RegName :=
  [("B", RegName.B), ("C", .C), ("D", .D), ("E", .E), ("H", .H), ("L", .L), ("A", .A), ("M", .M)].lookup (String.ofList w)

/-- An operand: a register name, a hexadecimal literal `0x..`, or a label (30_encoding.md R70, R71). -/
def readOperand (w : List Char) : Option SourceOperand :=
  match readRegName w, w with
  | some r, _ => some (.reg r)
  | none, '0' :: 'x' :: c :: digits => (hexValue 0 (c :: digits)).map .number
  | none, w => if isIdent w then some (.label (String.ofList w)) else none

/-- Operands separated by commas (30_encoding.md R70). -/
def readOperands (w : List Char) : Option (List SourceOperand) :=
  if w.isEmpty then some [] else (splitAtChar ',' w).mapM fun x => readOperand (trimBlanks x)

/-- An instruction: its mnemonic, then, after a space, its operands (30_encoding.md R70). -/
def readInstr (w : List Char) : Option SourceInstr :=
  match readMnemonic (w.takeWhile fun c => !isBlank c), readOperands (trimBlanks (w.dropWhile fun c => !isBlank c)) with
  | some m, some ops => some ⟨m, ops⟩
  | _, _ => none

/-- What stands after the label: nothing, or an instruction. -/
def readBody (label : Option String) (w : List Char) : Option SourceLine :=
  if w.isEmpty then some ⟨label, none⟩ else (readInstr w).map fun i => ⟨label, some i⟩

/-- A line: `;` starts a comment, and an identifier followed by `:` at its start is a label (30_encoding.md R71). -/
def readLine (line : List Char) : Option SourceLine :=
  let code := line.takeWhile fun c => c ≠ ';'
  match splitAtChar ':' code with
  | [body] => readBody none (trimBlanks body)
  | [name, body] =>
    if isIdent (trimBlanks name) then readBody (some (String.ofList (trimBlanks name))) (trimBlanks body) else none
  | _ => none

/-- The lines of a text; none if one of them cannot be read. -/
def readProgram (text : String) : Option (List SourceLine) := (splitAtChar '\n' text.toList).mapM readLine

/-- The bytes of a program's text that starts at `origin`. -/
def assembleText (origin : Word) (text : String) : Option (List Byte) := (readProgram text).bind (assembleProgram origin)

end Sys2Proof
end

