-- ==== Sys2Proof/Machine/HostInterface.lean ====
section
/-! DEFINITION. What the environment can do to a core: construct, load before the first step, step, take a snapshot
(spec/70_reset_and_hazards.md R236; spec/10_state.md R37, R38). The machine of Core.lean is the step alone; nothing in State or
in the step depends on this file. -/

namespace Sys2Proof.Machine

/-- The snapshot of D0's `getState`: every register, the five flags as separate bits, `pc`, `sp` and all 65536 bytes
(10_state.md R37). -/
structure Snapshot where
  A : Byte
  B : Byte
  C : Byte
  D : Byte
  E : Byte
  H : Byte
  L : Byte
  CY : Bool
  AC : Bool
  S : Bool
  Z : Bool
  P : Bool
  pc : Word
  sp : Word
  mem : Vector Byte Config.memorySize

/-- `getState()`: a copy, taken without writing the state (10_state.md R37). -/
def State.snapshot (s : State) : Snapshot where
  A := s.A
  B := s.B
  C := s.C
  D := s.D
  E := s.E
  H := s.H
  L := s.L
  CY := s.CY
  AC := s.AC
  S := s.S
  Z := s.Z
  P := s.P
  pc := s.pc
  sp := s.sp
  mem := Vector.ofFn fun k => s.readByte (BitVec.ofNat 16 k.val)

/-- One write of the loader, before the first step: any byte of memory, any register, any flag, `pc`, `sp`
(70_reset_and_hazards.md R236). -/
inductive LoadWrite where
  | byte (a : Word) (v : Byte)
  | reg (r : Reg) (v : Byte)
  | flag (f : Flag) (v : Bool)
  | pc (v : Word)
  | sp (v : Word)
deriving DecidableEq, Repr

/-- The effect of one loader write. -/
def State.load (s : State) : LoadWrite → State
  | .byte a v => s.writeByte a v
  | .reg r v => s.setReg r v
  | .flag f v => s.setFlag f v
  | .pc v => s.jumpTo v
  | .sp v => s.setSp v

/-- The launch state: the constructed core as the loader left it (70_reset_and_hazards.md R236). -/
def launchState (writes : List LoadWrite) : State := writes.foldl State.load State.reset

/-- An action of the host on one core (70_reset_and_hazards.md R236). -/
inductive HostAction where
  | load (w : LoadWrite)
  | step
  | snapshot
deriving DecidableEq, Repr

/-- What the core answers to a host action. -/
inductive HostReply where
  | loaded
  | stepped (r : StepReply)
  | state (v : Snapshot)

/-- One core under its host: its state and whether its first step has been asked for. -/
structure Session where
  state : State
  started : Bool
deriving DecidableEq, Repr

/-- Construct: "produce a Processor with all registers, flags, program counter, and stack pointer at zero"
(70_reset_and_hazards.md R230). -/
def Session.construct : Session := ⟨State.reset, false⟩

/-- One host action. A load is allowed "before the first step only": after it, the action is none
(70_reset_and_hazards.md R236; notes/assumptions/9.md). -/
def Session.act (h : Session) : HostAction → Option (Session × HostReply)
  | .load w => if h.started then none else some (⟨h.state.load w, false⟩, .loaded)
  | .step => some (⟨(executeNext h.state).1, true⟩, .stepped (executeNext h.state).2)
  | .snapshot => some (h, .state h.state.snapshot)

/-- A host action on the core numbered `k` of several: "each owns an independent memory array and register set"
(10_state.md R38). -/
def actOn (cores : List Session) (k : Nat) (a : HostAction) : Option (List Session × HostReply) :=
  match cores[k]? with
  | none => none
  | some h =>
    match h.act a with
    | none => none
    | some (h', r) => some (cores.set k h', r)

end Sys2Proof.Machine
end

