-- ==== Sys2Proof/Safety.lean ====
section
/-! DEFINITION. The terms that claims about runs use: the end of a run (spec/70_reset_and_hazards.md R238), which registers and
bytes an instruction may touch (spec/10_state.md R25, spec/20_memory.md R48), and states that differ in one part. -/

namespace Sys2Proof.Machine

/-! ### The end of a run -/

/-- The three ends of a bounded run (70_reset_and_hazards.md R238), and the refusal no instruction of the table gives. -/
inductive RunEnd where
  | finished (s : State)
  | faulted (s : State) (f : Fault)
  | unfinished (s : State)
  | refused (s : State) (r : Refusal)
deriving DecidableEq, Repr

/-- `pc` is the stop address and the bytes there are the jump to itself, `C3 lo hi` (70_reset_and_hazards.md R238). -/
def State.atStop (s : State) (stop : Word) : Bool :=
  s.pc == stop && s.readByte stop == 0xC3#8 && s.readWord (stop + 1) == stop

/-- The run from `s`, within a bound on the steps: finished at the first step boundary at the stop address, faulted at the first
step that returns `UnknownOpcode`, else unfinished (70_reset_and_hazards.md R238). -/
def runTo (stop : Word) : Nat → State → RunEnd
  | 0, s => if s.atStop stop then .finished s else .unfinished s
  | n + 1, s =>
    if s.atStop stop then .finished s
    else
      match step s with
      | .next t => runTo stop n t
      | .fault f => .faulted s f
      | .refused r => .refused s r

end Sys2Proof.Machine

namespace Sys2Proof

/-! ### What an instruction may touch -/

/-- The registers an instruction writes (10_state.md R25, the column "written by"). -/
def Instr.writtenRegs : Instr → List Reg
  | .mviB _ => [.B]
  | .mviC _ => [.C]
  | .mviD _ => [.D]
  | .mviE _ => [.E]
  | .mviH _ => [.H]
  | .mviL _ => [.L]
  | .mviA _ => [.A]
  | .lxiH _ => [.H, .L]
  | .rrc => [.A]
  | .nop | .sta _ | .dcrM | .mviM _ | .jmp _ | .pushB | .call _ | .jnc _ | .pushD | .jc _ | .pushH => []

/-- The registers an instruction reads (10_state.md R25, the column "read by"). -/
def Instr.readRegs : Instr → List Reg
  | .sta _ => [.A]
  | .rrc => [.A]
  | .pushB => [.B, .C]
  | .pushD => [.D, .E]
  | .pushH => [.H, .L]
  | .mviM _ => [.H, .L]
  | .dcrM => [.H, .L]
  | .nop | .mviB _ | .mviC _ | .mviD _ | .mviE _ | .lxiH _ | .mviH _ | .mviL _ | .mviA _ | .jmp _ | .call _ | .jnc _
  | .jc _ => []

/-- The flags an instruction writes (10_state.md R30, the column "written by"). -/
def Instr.writtenFlags : Instr → List Flag
  | .rrc => [.CY]
  | .dcrM => [.AC, .S, .Z]
  | .nop | .mviB _ | .mviC _ | .mviD _ | .mviE _ | .lxiH _ | .mviH _ | .mviL _ | .sta _ | .mviM _ | .mviA _ | .jmp _ | .pushB
  | .call _ | .jnc _ | .pushD | .jc _ | .pushH => []

/-- The flags an instruction reads (10_state.md R30, the column "read by"). -/
def Instr.readFlags : Instr → List Flag
  | .jc _ => [.CY]
  | .jnc _ => [.CY]
  | .nop | .mviB _ | .mviC _ | .rrc | .mviD _ | .mviE _ | .lxiH _ | .mviH _ | .mviL _ | .sta _ | .dcrM | .mviM _ | .mviA _
  | .jmp _ | .pushB | .call _ | .pushD | .pushH => []

/-- The addresses an instruction stores a byte to, in the state its handler runs in (20_memory.md R48, the column "writes"). -/
def Instr.storedAddresses (i : Instr) (s : Machine.State) : List Word :=
  match i with
  | .mviM _ => [s.HL]
  | .sta addr => [addr]
  | .dcrM => [s.HL]
  | .pushB | .pushD | .pushH | .call _ => [s.sp - 1, s.sp - 2]
  | .nop | .mviB _ | .mviC _ | .rrc | .mviD _ | .mviE _ | .lxiH _ | .mviH _ | .mviL _ | .mviA _ | .jmp _ | .jnc _ | .jc _ => []

/-- The addresses an instruction's handler loads a data byte from (20_memory.md R48, the column "reads", less the
instruction's own bytes). -/
def Instr.loadedAddresses (i : Instr) (s : Machine.State) : List Word :=
  match i with
  | .dcrM => [s.HL]
  | .nop | .mviB _ | .mviC _ | .rrc | .mviD _ | .mviE _ | .lxiH _ | .mviH _ | .mviL _ | .sta _ | .mviM _ | .mviA _ | .jmp _
  | .pushB | .call _ | .jnc _ | .pushD | .jc _ | .pushH => []

/-- The instruction pushes on the stack (10_state.md R28). -/
def Instr.pushes : Instr → Bool
  | .pushB | .pushD | .pushH | .call _ => true
  | .nop | .mviB _ | .mviC _ | .rrc | .mviD _ | .mviE _ | .lxiH _ | .mviH _ | .mviL _ | .sta _ | .dcrM | .mviM _ | .mviA _
  | .jmp _ | .jnc _ | .jc _ => false

/-- Where an instruction that starts at `a` leaves the program counter, given the Carry flag before it (40_dispatch.md R89). -/
def Instr.finalPc (i : Instr) (a : Word) (carry : Bool) : Word :=
  match i with
  | .jmp addr => addr
  | .call addr => addr
  | .jc addr => if carry then addr else a + 3
  | .jnc addr => if carry then a + 3 else addr
  | .nop | .rrc | .dcrM | .pushB | .pushD | .pushH => a + 1
  | .mviB _ | .mviC _ | .mviD _ | .mviE _ | .mviH _ | .mviL _ | .mviA _ | .mviM _ => a + 2
  | .sta _ | .lxiH _ => a + 3

end Sys2Proof

namespace Sys2Proof.Machine

/-! ### Outcomes and states compared -/

/-- The outcome with its next state, if it has one, changed by `f`. -/
def mapNext (f : State → State) : Host.Outcome State Fault Refusal → Host.Outcome State Fault Refusal
  | .next t => .next (f t)
  | .fault r => .fault r
  | .refused r => .refused r

/-- The bytes of memory from `a` on are those of the list, at rising addresses, wrapping (30_encoding.md R61). -/
def State.holdsAt (s : State) (a : Word) : List Byte → Prop
  | [] => True
  | b :: rest => s.readByte a = b ∧ s.holdsAt (a + 1) rest

/-- The three bytes from `a` on: the longest instruction (30_encoding.md R60). -/
def State.bytesAt (s : State) (a : Word) : List Byte := [s.readByte a, s.readByte (a + 1), s.readByte (a + 2)]

/-- `t` is `s` with byte `v` stored at `a` and nothing else changed: every other byte reads as before, every other field is the
same. -/
def State.storedInto (s t : State) (a : Word) (v : Byte) : Prop :=
  t.readByte a = v ∧ (∀ b, b ≠ a → t.readByte b = s.readByte b) ∧ t = { s with mem := t.mem }

/-- `t` is `s` with the pair `hi`, `lo` pushed and nothing else changed: `hi` at `sp - 1`, `lo` at `sp - 2`, `sp` lowered by two,
every other byte reads as before, every other field is the same (42_stack.md R130). -/
def State.pushedInto (s t : State) (hi lo : Byte) : Prop :=
  t.readByte (s.sp - 1) = hi ∧ t.readByte (s.sp - 2) = lo ∧
    (∀ b, b ≠ s.sp - 1 → b ≠ s.sp - 2 → t.readByte b = s.readByte b) ∧ t = { s with sp := s.sp - 2, mem := t.mem }

/-- An instruction's handler run `n` times in a row. -/
def execTimes (i : Instr) : Nat → State → Host.Outcome State Fault Refusal
  | 0, s => .next s
  | n + 1, s =>
    match exec i s with
    | .next t => execTimes i n t
    | .fault f => .fault f
    | .refused r => .refused r

/-- The 236 illegal opcode bytes, as the ranges 30_encoding.md R67 lists. -/
def illegalRanges : List (Nat × Nat) :=
  [(0x01, 0x05), (0x07, 0x0D), (0x10, 0x15), (0x17, 0x1D), (0x1F, 0x1F), (0x20, 0x20), (0x22, 0x25), (0x27, 0x2D),
    (0x2F, 0x2F), (0x30, 0x30), (0x31, 0x31), (0x33, 0x33), (0x34, 0x34), (0x37, 0x3D), (0x3F, 0x3F), (0x40, 0xBF),
    (0xC0, 0xC2), (0xC4, 0xC4), (0xC6, 0xCC), (0xCE, 0xD1), (0xD3, 0xD3), (0xD4, 0xD4), (0xD6, 0xD9), (0xDB, 0xE4),
    (0xE6, 0xFF)]

/-- A byte value lies in one of those ranges. -/
def illegalValue (n : Nat) : Bool := illegalRanges.any fun r => decide (r.1 ≤ n) && decide (n ≤ r.2)

/-- The cycle cost of every opcode, as 40_dispatch.md R91 lists them. -/
def publishedCosts : List (Byte × Nat) :=
  [(0x00, 4), (0x06, 7), (0x0E, 7), (0x0F, 4), (0x16, 7), (0x1E, 7), (0x21, 10), (0x26, 7), (0x2E, 7), (0x32, 13), (0x35, 10),
    (0x36, 10), (0x3E, 7), (0xC3, 10), (0xC5, 11), (0xCD, 17), (0xD2, 10), (0xD5, 11), (0xDA, 10), (0xE5, 11)]

/-- The 16-bit operand of a three-byte instruction at `a`: `{byte2, byte1}` (30_encoding.md R64). -/
def State.operandWord (s : State) (a : Word) : Word := wordOf (s.readByte (a + 2)) (s.readByte (a + 1))

end Sys2Proof.Machine
end

