-- ==== Sys2Proof/Certificates/Slice0/Obligations.lean ====
section
/-! DEFINITION. The statements for the provers. `s.pc` in a statement about `exec` is the program counter the dispatcher has already
advanced (40_dispatch.md R82); in a statement about `step` or `executeNext` it is the instruction's own address. -/

open Sys2Proof Sys2Proof.Machine

/-! ### Encoding -/

/-- Decoding an instruction's encoding, followed by anything, gives the instruction back with every operand, and the bytes after
it. -/
def Obligations.DecodeInvertsEncode : Prop :=
  ∀ (i : Instr) (rest : List Byte), decode (encode i ++ rest) = .ok (i, rest)

/-- Bytes that decode are the encoding of what they decode to: no byte string has a second reading. -/
def Obligations.DecodedBytesAreTheEncoding : Prop :=
  ∀ (bytes rest : List Byte) (i : Instr), decode bytes = .ok (i, rest) → bytes = encode i ++ rest

/-- Words written out bit by bit from 30_encoding.md R61 and R62, one of each family, decode to what they stand for. The
register of MVI C is the model's PRESUMED reading (log 5). -/
def Obligations.SampleWordsDecode : Prop :=
  decode [0b00000000#8] = .ok (.nop, []) ∧
  decode [0b11000011#8, 0x33#8, 0x44#8] = .ok (.jmp 0x4433#16, []) ∧
  decode [0b11010101#8] = .ok (.pushD, []) ∧
  decode [0b00001110#8, 0xCC#8] = .ok (.mviC 0xCC#8, []) ∧
  decode [0b00100001#8, 0xCD#8, 0xAB#8] = .ok (.lxiH 0xABCD#16, []) ∧
  decode [0b00001111#8] = .ok (.rrc, []) ∧
  decode [0b01110110#8] = .error (.unknownOpcode 0x76#8)

/-- 30_encoding.md R60: 1, 2 or 3 bytes, the length fixed by the opcode byte alone, the first byte always the opcode. -/
def Obligations.LengthIsFixedByTheOpcode : Prop :=
  (∀ i : Instr, 1 ≤ (encode i).length ∧ (encode i).length ≤ 3 ∧ (encode i).head? = some i.opcode) ∧
  ∀ i j : Instr, i.opcode = j.opcode → (encode i).length = (encode j).length

/-- 30_encoding.md R67: the bytes outside the table are exactly the 236 listed, and each raises `UnknownOpcode` with the byte
and its address. -/
def Obligations.IllegalBytesRaiseUnknownOpcode : Prop :=
  (∀ b : Byte, lookup b = none ↔ illegalValue b.toNat = true) ∧
  (List.range 256).countP illegalValue = 236 ∧
  ∀ s : State, illegalValue (s.readByte s.pc).toNat = true →
    step s = .fault (.unknownOpcode (s.readByte s.pc) s.pc)

/-- 40_dispatch.md R92: a row's length is one plus the operand bytes its handler reads, and an instruction read from three bytes
has taken exactly its own. -/
def Obligations.LengthCountsTheOperandBytes : Prop :=
  (∀ (op : Byte) (d : Descriptor), lookup op = some d →
    (∀ i, d.build = .f1 i → d.length = 1) ∧ (∀ mk, d.build = .f2 mk → d.length = 2) ∧ ∀ mk, d.build = .f3 mk → d.length = 3) ∧
  ∀ (bytes rest : List Byte) (i : Instr), decode bytes = .ok (i, rest) → bytes.length = i.length + rest.length

/-! ### The step -/

/-- When the bytes at the program counter decode to an instruction, the step is that instruction's meaning in the state with
`pc` moved past the instruction's bytes, modulo 2^16. At the ends of memory addresses wrap: the spec's decision D1 (log 2). -/
def Obligations.StepRunsTheDecodedInstruction : Prop :=
  ∀ (s : State) (i : Instr) (rest : List Byte), decode (s.bytesAt s.pc) = .ok (i, rest) →
    step s = exec i { s with pc := s.pc + BitVec.ofNat 16 i.length }

/-- The same, from the encoding in memory: only the instruction's own bytes count, and they may wrap past 0xFFFF. At the ends of
memory addresses wrap: the spec's decision D1 (log 2). -/
def Obligations.StepRunsTheEncodedInstruction : Prop :=
  ∀ (s : State) (i : Instr), s.holdsAt s.pc (encode i) →
    step s = exec i { s with pc := s.pc + BitVec.ofNat 16 (encode i).length }

/-- An instruction placed at the program counter is the one the next step runs. At the ends of memory addresses wrap: the spec's
decision D1 (log 2). -/
def Obligations.PlacedInstructionRuns : Prop :=
  ∀ (s : State) (i : Instr), (s.placeBytes s.pc (encode i)).pc = s.pc ∧
    step (s.placeBytes s.pc (encode i)) =
      exec i { s.placeBytes s.pc (encode i) with pc := s.pc + BitVec.ofNat 16 i.length }

/-- 40_dispatch.md R86, 60_exceptions.md R203: on a byte outside the table the step is the error with the byte and its address,
and every register, flag, `pc`, `sp` and memory byte is as before. -/
def Obligations.UnknownOpcodeWritesNoState : Prop :=
  ∀ s : State, lookup (s.readByte s.pc) = none →
    step s = .fault (.unknownOpcode (s.readByte s.pc) s.pc) ∧
    executeNext s = (s, .err (.unknownOpcode (s.readByte s.pc) s.pc))

/-- 60_exceptions.md R201: no instruction fails once dispatched; a step faults only on an opcode byte outside the table, and
never refuses. -/
def Obligations.OnlyTheDispatcherRaises : Prop :=
  (∀ (i : Instr) (s : State), ∃ t, exec i s = .next t) ∧
  (∀ (s : State) (f : Fault), step s = .fault f →
    lookup (s.readByte s.pc) = none ∧ f = .unknownOpcode (s.readByte s.pc) s.pc) ∧
  (∀ (s : State) (r : Refusal), step s ≠ .refused r) ∧
  ∀ s : State, (∃ d, lookup (s.readByte s.pc) = some d) → ∃ t, step s = .next t

/-- 40_dispatch.md R80: `executeNext` has two outcomes, which are the step's: `Ok` with the step's next state, or `Err` with the
step's fault and the state as it was. -/
def Obligations.ExecuteNextHasTwoOutcomes : Prop :=
  ∀ s : State,
    (∃ t n, executeNext s = (t, .ok n) ∧ step s = .next t) ∨
    (lookup (s.readByte s.pc) = none ∧ executeNext s = (s, .err (.unknownOpcode (s.readByte s.pc) s.pc)) ∧
      step s = .fault (.unknownOpcode (s.readByte s.pc) s.pc))

/-- 40_dispatch.md R85 and 70_reset_and_hazards.md R242: a successful step returns its opcode's cycle cost, whatever the
operands, the flags, and whether a conditional jump is taken. -/
def Obligations.CycleCostIsFixedPerOpcode : Prop :=
  (∀ (s : State) (op : Byte) (n : Nat), (op, n) ∈ publishedCosts → s.readByte s.pc = op → ∃ t, executeNext s = (t, .ok n)) ∧
  ∀ (s t : State) (n : Nat), executeNext s = (t, .ok n) → (s.readByte s.pc, n) ∈ publishedCosts

/-- A step that fails fails again in the same way: the failed state is the state before. That it ends a run is log 7. -/
def Obligations.FailedStepRepeats : Prop :=
  ∀ (s t : State) (f : Fault), executeNext s = (t, .err f) → t = s ∧ executeNext t = (t, .err f) ∧ step t = .fault f

/-- Where every successful step leaves the program counter: the length past its start modulo 2^16 (the wrap is log 2), or the
target. -/
def Obligations.FinalProgramCounter : Prop :=
  ∀ (s t : State) (i : Instr) (rest : List Byte), decode (s.bytesAt s.pc) = .ok (i, rest) → step s = .next t →
    t.pc = i.finalPc s.pc s.CY

/-- An instruction whose bytes run past 0xFFFF reads them on from 0x0000 and continues there: the spec's decision D1 (log 2). -/
def Obligations.FetchWrapsAtTheTopOfMemory : Prop :=
  (∀ s : State, s.pc = 0xFFFF#16 → s.readByte 0xFFFF#16 = 0x00#8 → step s = .next { s with pc := 0x0000#16 }) ∧
  (∀ s : State, s.pc = 0xFFFE#16 → s.readByte 0xFFFE#16 = 0xC3#8 →
    step s = .next { s with pc := wordOf (s.readByte 0x0000#16) (s.readByte 0xFFFF#16) }) ∧
  (∀ s : State, s.pc = 0xFFFF#16 → s.readByte 0xFFFF#16 = 0x21#8 →
    step s = .next { s with H := s.readByte 0x0001#16, L := s.readByte 0x0000#16, pc := 0x0002#16 }) ∧
  ∀ s : State, s.pc = 0xFFFD#16 → s.readByte 0xFFFD#16 = 0xDA#8 → s.CY = false → step s = .next { s with pc := 0x0000#16 }

/-! ### Control -/

/-- 41_control.md R100: NOP changes nothing but the program counter, at 4 cycles. At the ends of memory addresses wrap: the
spec's decision D1 (log 2). -/
def Obligations.NopOnlyAdvances : Prop :=
  (∀ s : State, exec .nop s = .next s) ∧
  ∀ s : State, s.readByte s.pc = 0x00#8 → executeNext s = ({ s with pc := s.pc + 1 }, .ok 4)

/-- 41_control.md R101: JMP sets `pc` to its address and changes nothing else, at 10 cycles. At the ends of memory addresses
wrap: the spec's decision D1 (log 2). -/
def Obligations.JmpGoesToItsAddress : Prop :=
  (∀ (s : State) (addr : Word), exec (.jmp addr) s = .next { s with pc := addr }) ∧
  ∀ s : State, s.readByte s.pc = 0xC3#8 → executeNext s = ({ s with pc := s.operandWord s.pc }, .ok 10)

/-- 41_control.md R102: CALL pushes the address after itself and goes to its address, which it has read before the push, at 17
cycles. At the ends of memory addresses wrap: the spec's decision D1 (log 2). -/
def Obligations.CallPushesTheReturnAddress : Prop :=
  (∀ (s : State) (addr : Word), ∃ t, exec (.call addr) s = .next t ∧
    State.pushedInto { s with pc := addr } t (hiByte s.pc) (loByte s.pc)) ∧
  ∀ s : State, s.readByte s.pc = 0xCD#8 → ∃ t, executeNext s = (t, .ok 17) ∧
    State.pushedInto { s with pc := s.operandWord s.pc } t (hiByte (s.pc + 3)) (loByte (s.pc + 3))

/-- 41_control.md R103: JC goes to its address when CY is 1, else falls through; CY is read, not changed; 10 cycles either way.
At the ends of memory addresses wrap: the spec's decision D1 (log 2). -/
def Obligations.JcJumpsOnCarry : Prop :=
  (∀ (s : State) (addr : Word), s.CY = true → exec (.jc addr) s = .next { s with pc := addr }) ∧
  (∀ (s : State) (addr : Word), s.CY = false → exec (.jc addr) s = .next s) ∧
  ∀ s : State, s.readByte s.pc = 0xDA#8 →
    executeNext s = ({ s with pc := if s.CY then s.operandWord s.pc else s.pc + 3 }, .ok 10)

/-- 41_control.md R104: JNC goes to its address when CY is 0, else falls through; 10 cycles either way. At the ends of memory
addresses wrap: the spec's decision D1 (log 2). -/
def Obligations.JncJumpsOnNoCarry : Prop :=
  (∀ (s : State) (addr : Word), s.CY = false → exec (.jnc addr) s = .next { s with pc := addr }) ∧
  (∀ (s : State) (addr : Word), s.CY = true → exec (.jnc addr) s = .next s) ∧
  ∀ s : State, s.readByte s.pc = 0xD2#8 →
    executeNext s = ({ s with pc := if s.CY then s.pc + 3 else s.operandWord s.pc }, .ok 10)

/-- A CALL whose push lands on its own operand bytes still goes where they pointed, and leaves the return address in their
place: the order of 20_memory.md R53, the spec's decision D13 (log 8). At the ends of memory addresses wrap: the spec's
decision D1 (log 2). -/
def Obligations.CallReadsItsTargetBeforeThePush : Prop :=
  ∀ s : State, s.readByte s.pc = 0xCD#8 → s.sp = s.pc + 3 →
    ∃ t, step s = .next t ∧ t.pc = s.operandWord s.pc ∧ t.sp = s.pc + 1 ∧
      t.readByte (s.pc + 1) = loByte (s.pc + 3) ∧ t.readByte (s.pc + 2) = hiByte (s.pc + 3) ∧ t.readByte s.pc = 0xCD#8

/-! ### Stack -/

/-- 42_stack.md R130: the push primitive, with the stacked word little-endian at the new `sp`. At the ends of memory addresses
wrap: the spec's decision D1 (log 2). -/
def Obligations.PushPairPlacesBothBytes : Prop :=
  ∀ (s : State) (hi lo : Byte), State.pushedInto s (s.pushPair hi lo) hi lo ∧
    (s.pushPair hi lo).readWord (s.pushPair hi lo).sp = wordOf hi lo

/-- 42_stack.md R131, R132, R133: PUSH B, PUSH D, PUSH H push (B,C), (D,E), (H,L) and change nothing else, at 11 cycles. At the
ends of memory addresses wrap: the spec's decision D1 (log 2). -/
def Obligations.PushInstructionsPushTheirPair : Prop :=
  (∀ s : State, ∃ t, exec .pushB s = .next t ∧ State.pushedInto s t s.B s.C) ∧
  (∀ s : State, ∃ t, exec .pushD s = .next t ∧ State.pushedInto s t s.D s.E) ∧
  (∀ s : State, ∃ t, exec .pushH s = .next t ∧ State.pushedInto s t s.H s.L) ∧
  (∀ s : State, s.readByte s.pc = 0xC5#8 →
    ∃ t, executeNext s = (t, .ok 11) ∧ State.pushedInto { s with pc := s.pc + 1 } t s.B s.C) ∧
  (∀ s : State, s.readByte s.pc = 0xD5#8 →
    ∃ t, executeNext s = (t, .ok 11) ∧ State.pushedInto { s with pc := s.pc + 1 } t s.D s.E) ∧
  ∀ s : State, s.readByte s.pc = 0xE5#8 →
    ∃ t, executeNext s = (t, .ok 11) ∧ State.pushedInto { s with pc := s.pc + 1 } t s.H s.L

/-- The stack wraps at address 0x0000: the three rows of 42_stack.md section 3, the spec's decision D1 (log 2). -/
def Obligations.StackWrapsAtZero : Prop :=
  ∀ (s : State) (hi lo : Byte),
    (s.sp = 0x0000#16 → (s.pushPair hi lo).readByte 0xFFFF#16 = hi ∧ (s.pushPair hi lo).readByte 0xFFFE#16 = lo ∧
      (s.pushPair hi lo).sp = 0xFFFE#16) ∧
    (s.sp = 0x0001#16 → (s.pushPair hi lo).readByte 0x0000#16 = hi ∧ (s.pushPair hi lo).readByte 0xFFFF#16 = lo ∧
      (s.pushPair hi lo).sp = 0xFFFF#16) ∧
    (s.sp = 0x0002#16 → (s.pushPair hi lo).readByte 0x0001#16 = hi ∧ (s.pushPair hi lo).readByte 0x0000#16 = lo ∧
      (s.pushPair hi lo).sp = 0x0000#16)

/-- Only PUSH B, PUSH D, PUSH H and CALL move `sp`, always down by two, and no other instruction depends on it. At the ends of
memory addresses wrap: the spec's decision D1 (log 2). -/
def Obligations.OnlyPushesMoveTheStackPointer : Prop :=
  (∀ (i : Instr) (s t : State), exec i s = .next t → t.sp = if i.pushes then s.sp - 2 else s.sp) ∧
  ∀ (i : Instr) (s : State) (w : Word), i.pushes = false →
    exec i (s.setSp w) = mapNext (fun t => t.setSp w) (exec i s)

/-! ### Data transfer -/

/-- MVI r,D8: the register gets the immediate; no flag, no other register and no memory byte changes. -/
def Obligations.MviLoadsItsRegister : Prop :=
  ∀ (s : State) (d8 : Byte),
    exec (.mviA d8) s = .next { s with A := d8 } ∧
    exec (.mviB d8) s = .next { s with B := d8 } ∧
    exec (.mviC d8) s = .next { s with C := d8 } ∧
    exec (.mviD d8) s = .next { s with D := d8 } ∧
    exec (.mviE d8) s = .next { s with E := d8 } ∧
    exec (.mviH d8) s = .next { s with H := d8 } ∧
    exec (.mviL d8) s = .next { s with L := d8 }

/-- The seven MVI opcodes and the registers they load, at 7 cycles. Which opcode selects which register is PRESUMED, the Intel
8080's assignment (log 5). At the ends of memory addresses wrap: the spec's decision D1 (log 2). -/
def Obligations.MviOpcodesSelectTheirRegister : Prop :=
  ∀ s : State,
    (s.readByte s.pc = 0x06#8 → executeNext s = ({ s with B := s.readByte (s.pc + 1), pc := s.pc + 2 }, .ok 7)) ∧
    (s.readByte s.pc = 0x0E#8 → executeNext s = ({ s with C := s.readByte (s.pc + 1), pc := s.pc + 2 }, .ok 7)) ∧
    (s.readByte s.pc = 0x16#8 → executeNext s = ({ s with D := s.readByte (s.pc + 1), pc := s.pc + 2 }, .ok 7)) ∧
    (s.readByte s.pc = 0x1E#8 → executeNext s = ({ s with E := s.readByte (s.pc + 1), pc := s.pc + 2 }, .ok 7)) ∧
    (s.readByte s.pc = 0x26#8 → executeNext s = ({ s with H := s.readByte (s.pc + 1), pc := s.pc + 2 }, .ok 7)) ∧
    (s.readByte s.pc = 0x2E#8 → executeNext s = ({ s with L := s.readByte (s.pc + 1), pc := s.pc + 2 }, .ok 7)) ∧
    (s.readByte s.pc = 0x3E#8 → executeNext s = ({ s with A := s.readByte (s.pc + 1), pc := s.pc + 2 }, .ok 7))

/-- 43_data_transfer.md R158: MVI M stores its immediate at HL and changes nothing else, at 10 cycles. At the ends of memory
addresses wrap: the spec's decision D1 (log 2). -/
def Obligations.MviMStoresAtHL : Prop :=
  (∀ (s : State) (d8 : Byte), ∃ t, exec (.mviM d8) s = .next t ∧ State.storedInto s t s.HL d8) ∧
  ∀ s : State, s.readByte s.pc = 0x36#8 → ∃ t, executeNext s = (t, .ok 10) ∧
    State.storedInto { s with pc := s.pc + 2 } t (wordOf s.H s.L) (s.readByte (s.pc + 1))

/-- 43_data_transfer.md R159: STA stores the accumulator at its address, one byte, and changes nothing else, at 13 cycles. At
the ends of memory addresses wrap: the spec's decision D1 (log 2). -/
def Obligations.StaStoresTheAccumulator : Prop :=
  (∀ (s : State) (addr : Word), ∃ t, exec (.sta addr) s = .next t ∧ State.storedInto s t addr s.A) ∧
  ∀ s : State, s.readByte s.pc = 0x32#8 → ∃ t, executeNext s = (t, .ok 13) ∧
    State.storedInto { s with pc := s.pc + 3 } t (s.operandWord s.pc) s.A

/-- 43_data_transfer.md R160: LXI H puts the high byte of its immediate in H and the low byte in L and changes nothing else, at
10 cycles. At the ends of memory addresses wrap: the spec's decision D1 (log 2). -/
def Obligations.LxiHLoadsThePair : Prop :=
  (∀ (s : State) (d16 : Word), exec (.lxiH d16) s = .next { s with H := hiByte d16, L := loByte d16 }) ∧
  ∀ s : State, s.readByte s.pc = 0x21#8 →
    executeNext s = ({ s with H := s.readByte (s.pc + 2), L := s.readByte (s.pc + 1), pc := s.pc + 3 }, .ok 10)

/-- 10_state.md R23: HL is the view H * 256 + L; writing H or L changes it, and LXI H writes H with bits 15:8 and L with bits
7:0. -/
def Obligations.HLIsAViewOfHAndL : Prop :=
  (∀ s : State, s.HL.toNat = s.H.toNat * 256 + s.L.toNat) ∧
  (∀ (s t : State) (d8 : Byte), exec (.mviH d8) s = .next t → t.HL = wordOf d8 s.L) ∧
  (∀ (s t : State) (d8 : Byte), exec (.mviL d8) s = .next t → t.HL = wordOf s.H d8) ∧
  ∀ (s t : State) (d16 : Word), exec (.lxiH d16) s = .next t →
    t.HL = d16 ∧ t.H.toNat = d16.toNat / 256 ∧ t.L.toNat = d16.toNat % 256

/-! ### Arithmetic and logic -/

/-- DCR M: the byte at HL goes down by one modulo 256; AC, Z and S are each written by their condition, true or false (clearing
them is the spec's decision D3, log 4; the AC condition is 90_conflicts.md C2, log 6); nothing else changes; 10 cycles. At the
ends of memory addresses wrap: the spec's decision D1 (log 2). -/
def Obligations.DcrMDecrementsTheByteAtHL : Prop :=
  (∀ s : State, ∃ t, exec .dcrM s = .next t ∧
    t.readByte s.HL = s.readByte s.HL - 1 ∧ (∀ a, a ≠ s.HL → t.readByte a = s.readByte a) ∧
    t = { s with
      mem := t.mem
      AC := decide ((s.readByte s.HL - 1).toNat % 16 = 0)
      Z := decide (s.readByte s.HL = 1)
      S := decide (128 ≤ (s.readByte s.HL - 1).toNat) }) ∧
  ∀ s : State, s.readByte s.pc = 0x35#8 → ∃ t, executeNext s = (t, .ok 10) ∧
    exec .dcrM { s with pc := s.pc + 1 } = .next t

/-- `n` DCR Ms in a row take `n` off the byte at HL modulo 256 and touch no other byte, no register, no CY and no P: 256 of them
give the byte back. -/
def Obligations.RepeatedDcrMCountsDown : Prop :=
  ∀ (n : Nat) (s : State), ∃ t, execTimes .dcrM n s = .next t ∧
    t.readByte s.HL = s.readByte s.HL - BitVec.ofNat 8 n ∧ (∀ a, a ≠ s.HL → t.readByte a = s.readByte a) ∧
    t = { s with mem := t.mem, AC := t.AC, Z := t.Z, S := t.S }

/-- 44_arith_logic.md R182: RRC rotates A right by one bit, CY gets the bit rotated out, and nothing else changes, at 4 cycles.
At the ends of memory addresses wrap: the spec's decision D1 (log 2). -/
def Obligations.RrcRotatesTheAccumulator : Prop :=
  (∀ s : State, exec .rrc s = .next { s with A := s.A.rotateRight 1, CY := s.A.getLsbD 0 }) ∧
  (∀ s : State, s.readByte s.pc = 0x0F#8 →
    executeNext s = ({ s with A := s.A.rotateRight 1, CY := s.A.getLsbD 0, pc := s.pc + 1 }, .ok 4)) ∧
  ∀ s : State, execTimes .rrc 8 s = .next { s with CY := s.A.getLsbD 7 }

/-! ### Whole-machine rules -/

/-- An instruction not listed for a register (10_state.md section 2) neither writes it nor depends on it. -/
def Obligations.RegisterAccessIsAsListed : Prop :=
  (∀ (i : Instr) (s t : State) (r : Reg), exec i s = .next t → r ∉ i.writtenRegs → t.getReg r = s.getReg r) ∧
  (∀ (i : Instr) (s : State) (r : Reg) (v : Byte), r ∉ i.readRegs → r ∉ i.writtenRegs →
    exec i (s.setReg r v) = mapNext (fun t => t.setReg r v) (exec i s)) ∧
  ∀ (i : Instr) (s : State) (r : Reg) (v : Byte), r ∉ i.readRegs → r ∈ i.writtenRegs → exec i (s.setReg r v) = exec i s

/-- An instruction not listed for a flag (10_state.md section 6) neither writes it nor depends on it, and one listed as writing a
flag it does not read gives the same outcome whatever the flag held. For DCR M with AC, S and Z this last clause is the spec's
decision D3 (log 4): each is written every time, 0 when its condition fails. -/
def Obligations.FlagAccessIsAsListed : Prop :=
  (∀ (i : Instr) (s t : State) (f : Flag), exec i s = .next t → f ∉ i.writtenFlags → t.getFlag f = s.getFlag f) ∧
  (∀ (i : Instr) (s : State) (f : Flag) (v : Bool), f ∉ i.readFlags → f ∉ i.writtenFlags →
    exec i (s.setFlag f v) = mapNext (fun t => t.setFlag f v) (exec i s)) ∧
  ∀ (i : Instr) (s : State) (f : Flag) (v : Bool), f ∉ i.readFlags → f ∈ i.writtenFlags → exec i (s.setFlag f v) = exec i s

/-- 10_state.md R31: no step writes or reads Parity; it is 0 after construction, and the snapshot shows it. -/
def Obligations.ParityKeepsItsLaunchValue : Prop :=
  (∀ s t : State, step s = .next t → t.P = s.P) ∧
  (∀ (s : State) (v : Bool), step { s with P := v } = mapNext (fun t => { t with P := v }) (step s)) ∧
  State.reset.P = false ∧
  ∀ s : State, s.snapshot.P = s.P

/-- Every byte outside the addresses listed for an instruction (20_memory.md section 5, the table's column "writes") reads as
before. At the ends of memory addresses wrap: the spec's decision D1 (log 2). -/
def Obligations.MemoryChangesOnlyWhereListed : Prop :=
  ∀ (i : Instr) (s t : State), exec i s = .next t →
    ∀ a, a ∉ i.storedAddresses s → t.readByte a = s.readByte a

/-- What a step reads of memory is its own bytes and, for DCR M, the byte at HL: with any other memory that has those bytes, the
step gives the same registers, flags, `pc` and `sp` and stores the same bytes. At the ends of memory addresses wrap: the spec's
decision D1 (log 2). -/
def Obligations.StepReadsOnlyItsOwnBytesAndM : Prop :=
  ∀ (s t : State) (m : Memory) (i : Instr), s.holdsAt s.pc (encode i) → State.holdsAt { s with mem := m } s.pc (encode i) →
    (∀ a ∈ i.loadedAddresses s, m.read a = s.readByte a) → step s = .next t →
    ∃ t', step { s with mem := m } = .next t' ∧ t' = { t with mem := t'.mem } ∧
      (∀ a ∈ i.storedAddresses s, t'.readByte a = t.readByte a) ∧
      ∀ a, a ∉ i.storedAddresses s → t'.readByte a = m.read a

/-- A store into the next instruction's opcode byte is what the next step fetches, with no fence between: an illegal byte faults
there, a NOP runs. At the ends of memory addresses wrap: the spec's decision D1 (log 2). -/
def Obligations.StoreIsSeenByTheNextFetch : Prop :=
  ∀ s t : State, s.readByte s.pc = 0x36#8 → s.HL = s.pc + 2 → step s = .next t →
    (lookup (s.readByte (s.pc + 1)) = none → step t = .fault (.unknownOpcode (s.readByte (s.pc + 1)) (s.pc + 2))) ∧
    (s.readByte (s.pc + 1) = 0x00#8 → step t = .next { t with pc := s.pc + 3 })

/-! ### Memory -/

/-- 20_memory.md R44: a value written at an address and read back at once is the value modulo 256. -/
def Obligations.WrittenByteReadsBack : Prop :=
  ∀ (s : State) (a : Word) (value : Int), (s.writeBytes a.toNat value).readBytes 1 a.toNat = .ok (u8 value).toNat

/-- The memory access unit: two bytes are assembled little-endian, offsets count modulo 2^16 (the spec's decision D1, log 2), a
write changes one byte, and a read of any other width is refused. -/
def Obligations.MemoryAccessUnit : Prop :=
  (∀ (s : State) (offset : Int), s.readBytes 2 offset =
    .ok ((s.readByte (u16 offset)).toNat + 256 * (s.readByte (u16 (offset + 1))).toNat)) ∧
  (∀ (s : State) (n : Nat) (offset : Int), s.readBytes n (offset + 65536) = s.readBytes n offset) ∧
  (∀ (s : State) (a b value : Int), (a - b) % 65536 ≠ 0 →
    (s.writeBytes a value).readBytes 1 b = s.readBytes 1 b) ∧
  ∀ (s : State) (n : Nat) (offset : Int), n ≠ 1 → n ≠ 2 → s.readBytes n offset = .error (.readWidth n)

/-- After any sequence of byte writes, a byte reads as the latest write to it, or as it stood before if there was none. -/
def Obligations.ReadReturnsTheLatestWrite : Prop :=
  ∀ (writes : List (Word × Byte)) (s : State) (a : Word),
    (writes.foldl (fun u w => u.writeByte w.1 w.2) s).readByte a = (writes.reverse.lookup a).getD (s.readByte a)

/-- Every step keeps memory in its canonical form (log 1), from every state that has it. -/
def Obligations.StepKeepsMemoryCanonical : Prop :=
  ∀ s t : State, s.mem.wf = true → step s = .next t → t.mem.wf = true

/-! ### Reset, host and runs -/

/-- 10_state.md R36: after construction every register, `pc`, `sp`, every flag and every byte of memory is zero. -/
def Obligations.ResetIsAllZero : Prop :=
  (∀ r : Reg, State.reset.getReg r = 0x00#8) ∧ State.reset.pc = 0x0000#16 ∧ State.reset.sp = 0x0000#16 ∧
  (∀ f : Flag, State.reset.getFlag f = false) ∧ ∀ a : Word, State.reset.readByte a = 0x00#8

/-- Memory after construction is in canonical form (log 1), and the first step fetches the zero byte at 0x0000, a NOP. -/
def Obligations.ResetIsCanonicalAndRuns : Prop :=
  State.reset.mem.wf = true ∧ executeNext State.reset = ({ State.reset with pc := 0x0001#16 }, .ok 4)

/-- A snapshot shows every register, every flag, `pc`, `sp` and every byte as the state holds it, and taking it changes nothing
(10_state.md R37). That it is a read-only copy, apart from loading, is the spec's decision D5 (log 9). -/
def Obligations.SnapshotIsAReadOnlyCopy : Prop :=
  (∀ h : Session, h.act .snapshot = some (h, .state h.state.snapshot)) ∧
  ∀ s : State,
    (s.snapshot.A = s.A ∧ s.snapshot.B = s.B ∧ s.snapshot.C = s.C ∧ s.snapshot.D = s.D ∧ s.snapshot.E = s.E ∧
      s.snapshot.H = s.H ∧ s.snapshot.L = s.L) ∧
    (s.snapshot.CY = s.CY ∧ s.snapshot.AC = s.AC ∧ s.snapshot.S = s.S ∧ s.snapshot.Z = s.Z ∧ s.snapshot.P = s.P) ∧
    s.snapshot.pc = s.pc ∧ s.snapshot.sp = s.sp ∧
    ∀ (k : Nat) (hk : k < Config.memorySize), s.snapshot.mem[k] = s.readByte (BitVec.ofNat 16 k)

/-- Two states with canonical memory (log 1) and the same snapshot are the same state: the state holds nothing a snapshot does
not show. -/
def Obligations.SnapshotDeterminesTheState : Prop :=
  ∀ s t : State, s.mem.wf = true → t.mem.wf = true → s.snapshot = t.snapshot → s = t

/-- The launch states are exactly the states with canonical memory (log 1): the loader can set every field (log 9). -/
def Obligations.LaunchStatesAreTheCanonicalStates : Prop :=
  ∀ s : State, s.mem.wf = true ↔ ∃ writes : List LoadWrite, launchState writes = s

/-- The host loads before the first step only: the spec's decision D5 (log 9). -/
def Obligations.NoLoadAfterTheFirstStep : Prop :=
  (∀ (h : Session) (w : LoadWrite), h.started = false → h.act (.load w) = some (⟨h.state.load w, false⟩, .loaded)) ∧
  (∀ (h : Session) (w : LoadWrite), h.started = true → h.act (.load w) = none) ∧
  (∀ (h h' : Session) (r : HostReply), h.act .step = some (h', r) → h'.started = true) ∧
  ∀ (h h' : Session) (a : HostAction) (r : HostReply), h.started = true → h.act a = some (h', r) → h'.started = true

/-- 10_state.md R38: an action on one instance writes no state of another, and neither its reply nor its own next state depends
on another. -/
def Obligations.InstancesShareNothing : Prop :=
  ∀ (cores cores' : List Session) (k : Nat) (a : HostAction) (r : HostReply), actOn cores k a = some (cores', r) →
    (∀ j, j ≠ k → cores'[j]? = cores[j]?) ∧
    ∀ others : List Session, others[k]? = cores[k]? →
      ∃ others', actOn others k a = some (others', r) ∧ others'[k]? = cores'[k]?

/-- At a stop address, a jump to itself, a step leaves the state unchanged: the end of a run is the spec's decision D6 (log 10).
At the ends of memory addresses wrap: the spec's decision D1 (log 2). -/
def Obligations.StopAddressIsAFixedPoint : Prop :=
  ∀ (s : State) (stop : Word), s.atStop stop = true → step s = .next s

/-- The end of a run (70_reset_and_hazards.md R238). A run has finished at the first step boundary at the stop address, where `pc`
is the stop address, the bytes there are the jump to itself, and every further step leaves the state unchanged. It faults at the
first step that returns `UnknownOpcode`, with the byte and its address, and that step fails again from there. Any other step goes
on. A run that has finished or faulted within a bound ends so within every larger bound; a faulted run is never finished, within
any bound; and no run is refused. The end of a run is the spec's decision D6 (log 10), the fault's reading D4 (log 7). At the
ends of memory addresses wrap: the spec's decision D1 (log 2). -/
def Obligations.RunEndsOnceAndForAll : Prop :=
  (∀ (stop : Word) (n : Nat) (s : State), s.pc = stop → s.readByte stop = 0xC3#8 → s.readByte (stop + 1) = loByte stop →
    s.readByte (stop + 2) = hiByte stop → runTo stop n s = .finished s) ∧
  (∀ (stop : Word) (n : Nat) (s : State), lookup (s.readByte s.pc) = none →
    runTo stop (n + 1) s = .faulted s (.unknownOpcode (s.readByte s.pc) s.pc)) ∧
  (∀ (stop : Word) (n : Nat) (s : State), s.atStop stop = false → (∃ d, lookup (s.readByte s.pc) = some d) →
    ∃ t, step s = .next t ∧ runTo stop (n + 1) s = runTo stop n t) ∧
  (∀ (stop : Word) (n : Nat) (s u : State), runTo stop n s = .finished u →
    u.pc = stop ∧ u.readByte stop = 0xC3#8 ∧ u.readByte (stop + 1) = loByte stop ∧ u.readByte (stop + 2) = hiByte stop ∧
    step u = .next u) ∧
  (∀ (stop : Word) (n : Nat) (s u : State) (f : Fault), runTo stop n s = .faulted u f →
    lookup (u.readByte u.pc) = none ∧ f = .unknownOpcode (u.readByte u.pc) u.pc ∧ step u = .fault f) ∧
  (∀ (stop : Word) (n m : Nat) (s u : State), n ≤ m → runTo stop n s = .finished u → runTo stop m s = .finished u) ∧
  (∀ (stop : Word) (n m : Nat) (s u : State) (f : Fault), n ≤ m → runTo stop n s = .faulted u f →
    runTo stop m s = .faulted u f) ∧
  (∀ (stop : Word) (n m : Nat) (s u v : State) (f : Fault), runTo stop n s = .faulted u f → runTo stop m s ≠ .finished v) ∧
  (∀ (stop : Word) (n : Nat) (s u : State), runTo stop n s = .finished u → u.atStop stop = true) ∧
  ∀ (stop : Word) (n : Nat) (s u : State) (r : Refusal), runTo stop n s ≠ .refused u r

/-! ### Assembler -/

/-- A written instruction assembles exactly if it is well-formed, and every instruction, written out, assembles to itself. What
a label may be called is log 12. -/
def Obligations.AssemblesIffWellFormed : Prop :=
  (∀ (labels : String → Option Word) (i : SourceInstr),
    (i.assemble labels).isSome = i.wellFormed (fun name => (labels name).isSome)) ∧
  ∀ (labels : String → Option Word) (i : Instr), i.source.assemble labels = some i
end

