-- ==== Sys2Proof/Laws/Memory.lean ====
section
/-! SUPPORT. The laws of memory: a read after a write, the frame of a write, the canonical form, and that equal memories in
canonical form are equal lists. The first two hold for every cell list, canonical or not. -/

namespace Sys2Proof.Machine

/-! ### The list operations -/

theorem Memory.lookupAt_eraseAt_same (m : Memory) (k : Nat) : (m.eraseAt k).lookupAt k = Config.unlistedByte := by
  induction m with
  | nil => rfl
  | cons c rest ih =>
    obtain ⟨a, v⟩ := c
    by_cases h : a = k <;> simp [Memory.eraseAt, Memory.lookupAt, h, ih]

theorem Memory.lookupAt_eraseAt_other (m : Memory) {k j : Nat} (h : j ≠ k) : (m.eraseAt k).lookupAt j = m.lookupAt j := by
  induction m with
  | nil => rfl
  | cons c rest ih =>
    obtain ⟨a, v⟩ := c
    by_cases hk : a = k
    · subst hk; simp [Memory.eraseAt, Memory.lookupAt, ih, Ne.symm h]
    · by_cases hj : a = j
      · subst hj; simp [Memory.eraseAt, Memory.lookupAt, hk]
      · simp [Memory.eraseAt, Memory.lookupAt, hk, hj, ih]

theorem Memory.lookupAt_insertCell_other (m : Memory) {k j : Nat} (h : j ≠ k) (v : Byte) :
    (Memory.insertCell (k, v) m).lookupAt j = m.lookupAt j := by
  induction m with
  | nil => simp [Memory.insertCell, Memory.lookupAt, Ne.symm h]
  | cons c rest ih =>
    obtain ⟨a, w⟩ := c
    by_cases hlt : k < a
    · simp [Memory.insertCell, Memory.lookupAt, hlt, Ne.symm h]
    · by_cases hj : a = j
      · subst hj; simp [Memory.insertCell, Memory.lookupAt, hlt]
      · simp [Memory.insertCell, Memory.lookupAt, hlt, hj, ih]

/-- No cell of the list has address `k`. -/
def Memory.absentAt (m : Memory) (k : Nat) : Prop := ∀ c ∈ m, c.1 ≠ k

theorem Memory.absentAt_eraseAt (m : Memory) (k : Nat) : (m.eraseAt k).absentAt k := by
  induction m with
  | nil => simp [Memory.absentAt, Memory.eraseAt]
  | cons c rest ih =>
    obtain ⟨a, v⟩ := c
    by_cases h : a = k
    · simpa [Memory.eraseAt, h] using ih
    · simpa [Memory.eraseAt, h, Memory.absentAt] using ih

theorem Memory.lookupAt_insertCell_same (m : Memory) (k : Nat) (v : Byte) (h : m.absentAt k) :
    (Memory.insertCell (k, v) m).lookupAt k = v := by
  induction m with
  | nil => simp [Memory.insertCell, Memory.lookupAt]
  | cons c rest ih =>
    obtain ⟨a, w⟩ := c
    simp only [Memory.absentAt, List.forall_mem_cons] at h
    by_cases hlt : k < a
    · simp [Memory.insertCell, Memory.lookupAt, hlt]
    · simp [Memory.insertCell, Memory.lookupAt, hlt, h.1, ih h.2]

/-! ### Reads and writes -/

/-- A byte reads as what was last written to it. -/
@[simp] theorem Memory.read_write_same (m : Memory) (a : Word) (v : Byte) : (m.write a v).read a = v := by
  unfold Memory.write Memory.read
  split
  · rename_i h; rw [Memory.lookupAt_eraseAt_same, h]
  · exact Memory.lookupAt_insertCell_same _ _ _ (Memory.absentAt_eraseAt m a.toNat)

/-- A write leaves every other byte alone. -/
theorem Memory.read_write_other (m : Memory) {a b : Word} (h : b ≠ a) (v : Byte) : (m.write a v).read b = m.read b := by
  have hn : b.toNat ≠ a.toNat := fun e => h (BitVec.eq_of_toNat_eq e)
  unfold Memory.write Memory.read
  split
  · exact Memory.lookupAt_eraseAt_other m hn
  · rw [Memory.lookupAt_insertCell_other _ hn, Memory.lookupAt_eraseAt_other m hn]

/-- Both cases of a read after a write. -/
theorem Memory.read_write (m : Memory) (a b : Word) (v : Byte) : (m.write a v).read b = if b = a then v else m.read b := by
  split
  · rename_i h; subst h; simp
  · rename_i h; exact m.read_write_other h v

/-- Memory after construction reads zero everywhere. -/
@[simp] theorem Memory.read_nil (a : Word) : Memory.read [] a = 0x00#8 := rfl

/-! ### The canonical form -/

theorem Memory.wfFrom_cons (low a : Nat) (v : Byte) (rest : Memory) :
    Memory.wfFrom low ((a, v) :: rest) = true ↔
      low ≤ a ∧ a < Config.memorySize ∧ v ≠ Config.unlistedByte ∧ Memory.wfFrom (a + 1) rest = true := by
  simp [Memory.wfFrom, and_assoc]

theorem Memory.wfFrom_mono {low low' : Nat} (h : low' ≤ low) {m : Memory} (hm : Memory.wfFrom low m = true) :
    Memory.wfFrom low' m = true := by
  cases m with
  | nil => rfl
  | cons c rest =>
    rw [Memory.wfFrom_cons] at hm ⊢
    exact ⟨h.trans hm.1, hm.2⟩

theorem Memory.wfFrom_eraseAt (m : Memory) (k : Nat) {low : Nat} (hm : Memory.wfFrom low m = true) :
    Memory.wfFrom low (m.eraseAt k) = true := by
  induction m generalizing low with
  | nil => rfl
  | cons c rest ih =>
    obtain ⟨a, v⟩ := c
    rw [Memory.wfFrom_cons] at hm
    by_cases h : a = k
    · simp only [Memory.eraseAt, h, if_true]
      exact ih (Memory.wfFrom_mono (by omega) hm.2.2.2)
    · simp only [Memory.eraseAt, h, if_false, Memory.wfFrom_cons]
      exact ⟨hm.1, hm.2.1, hm.2.2.1, ih hm.2.2.2⟩

theorem Memory.wfFrom_insertCell (m : Memory) {k : Nat} {v : Byte} (hk : k < Config.memorySize) (hv : v ≠ Config.unlistedByte)
    (ha : m.absentAt k) {low : Nat} (hlow : low ≤ k) (hm : Memory.wfFrom low m = true) :
    Memory.wfFrom low (Memory.insertCell (k, v) m) = true := by
  induction m generalizing low with
  | nil => simp [Memory.insertCell, Memory.wfFrom, hlow, hk, hv]
  | cons c rest ih =>
    obtain ⟨a, w⟩ := c
    simp only [Memory.absentAt, List.forall_mem_cons] at ha
    rw [Memory.wfFrom_cons] at hm
    by_cases hlt : k < a
    · simp only [Memory.insertCell, hlt, if_true, Memory.wfFrom_cons]
      exact ⟨hlow, hk, hv, by omega, hm.2⟩
    · simp only [Memory.insertCell, hlt, if_false, Memory.wfFrom_cons]
      exact ⟨hm.1, hm.2.1, hm.2.2.1, ih ha.2 (by have := ha.1; omega) hm.2.2.2⟩

/-- A write keeps the canonical form. -/
theorem Memory.wf_write (m : Memory) (a : Word) (v : Byte) (hm : m.wf = true) : (m.write a v).wf = true := by
  unfold Memory.write Memory.wf
  split
  · exact Memory.wfFrom_eraseAt m a.toNat hm
  · rename_i hv
    exact Memory.wfFrom_insertCell _ (by simpa [Config.memorySize] using a.isLt) hv (Memory.absentAt_eraseAt m a.toNat) (Nat.zero_le _)
      (Memory.wfFrom_eraseAt m a.toNat hm)

/-- Memory after construction is in canonical form. -/
@[simp] theorem Memory.wf_nil : Memory.wf [] = true := rfl

theorem State.reset_mem_wf : State.reset.mem.wf = true := rfl

/-- Below its lower bound a canonical list reads the unlisted byte. -/
theorem Memory.lookupAt_below {m : Memory} {low k : Nat} (hm : Memory.wfFrom low m = true) (hk : k < low) :
    m.lookupAt k = Config.unlistedByte := by
  induction m generalizing low with
  | nil => rfl
  | cons c rest ih =>
    obtain ⟨a, v⟩ := c
    rw [Memory.wfFrom_cons] at hm
    simp only [Memory.lookupAt, show a ≠ k by omega, if_false]
    exact ih hm.2.2.2 (by omega)

end Sys2Proof.Machine
end

