-- ==== Sys2Proof/Laws/State.lean ====
section
/-! SUPPORT. One lemma per field per named update of the state, true by rfl, so that no later proof unfolds a record update. -/

namespace Sys2Proof.Machine

variable (s : State)

/-! ### writeByte -/

@[simp] theorem State.writeByte_A (a : Word) (v : Byte) : (s.writeByte a v).A = s.A := rfl
@[simp] theorem State.writeByte_B (a : Word) (v : Byte) : (s.writeByte a v).B = s.B := rfl
@[simp] theorem State.writeByte_C (a : Word) (v : Byte) : (s.writeByte a v).C = s.C := rfl
@[simp] theorem State.writeByte_D (a : Word) (v : Byte) : (s.writeByte a v).D = s.D := rfl
@[simp] theorem State.writeByte_E (a : Word) (v : Byte) : (s.writeByte a v).E = s.E := rfl
@[simp] theorem State.writeByte_H (a : Word) (v : Byte) : (s.writeByte a v).H = s.H := rfl
@[simp] theorem State.writeByte_L (a : Word) (v : Byte) : (s.writeByte a v).L = s.L := rfl
@[simp] theorem State.writeByte_pc (a : Word) (v : Byte) : (s.writeByte a v).pc = s.pc := rfl
@[simp] theorem State.writeByte_sp (a : Word) (v : Byte) : (s.writeByte a v).sp = s.sp := rfl
@[simp] theorem State.writeByte_CY (a : Word) (v : Byte) : (s.writeByte a v).CY = s.CY := rfl
@[simp] theorem State.writeByte_AC (a : Word) (v : Byte) : (s.writeByte a v).AC = s.AC := rfl
@[simp] theorem State.writeByte_S (a : Word) (v : Byte) : (s.writeByte a v).S = s.S := rfl
@[simp] theorem State.writeByte_Z (a : Word) (v : Byte) : (s.writeByte a v).Z = s.Z := rfl
@[simp] theorem State.writeByte_P (a : Word) (v : Byte) : (s.writeByte a v).P = s.P := rfl
@[simp] theorem State.writeByte_mem (a : Word) (v : Byte) : (s.writeByte a v).mem = s.mem.write a v := rfl

/-! ### advancePc -/

@[simp] theorem State.advancePc_A (n : Nat) : (s.advancePc n).A = s.A := rfl
@[simp] theorem State.advancePc_B (n : Nat) : (s.advancePc n).B = s.B := rfl
@[simp] theorem State.advancePc_C (n : Nat) : (s.advancePc n).C = s.C := rfl
@[simp] theorem State.advancePc_D (n : Nat) : (s.advancePc n).D = s.D := rfl
@[simp] theorem State.advancePc_E (n : Nat) : (s.advancePc n).E = s.E := rfl
@[simp] theorem State.advancePc_H (n : Nat) : (s.advancePc n).H = s.H := rfl
@[simp] theorem State.advancePc_L (n : Nat) : (s.advancePc n).L = s.L := rfl
@[simp] theorem State.advancePc_pc (n : Nat) : (s.advancePc n).pc = s.pc + BitVec.ofNat 16 n := rfl
@[simp] theorem State.advancePc_sp (n : Nat) : (s.advancePc n).sp = s.sp := rfl
@[simp] theorem State.advancePc_CY (n : Nat) : (s.advancePc n).CY = s.CY := rfl
@[simp] theorem State.advancePc_AC (n : Nat) : (s.advancePc n).AC = s.AC := rfl
@[simp] theorem State.advancePc_S (n : Nat) : (s.advancePc n).S = s.S := rfl
@[simp] theorem State.advancePc_Z (n : Nat) : (s.advancePc n).Z = s.Z := rfl
@[simp] theorem State.advancePc_P (n : Nat) : (s.advancePc n).P = s.P := rfl
@[simp] theorem State.advancePc_mem (n : Nat) : (s.advancePc n).mem = s.mem := rfl

/-! ### jumpTo -/

@[simp] theorem State.jumpTo_A (w : Word) : (s.jumpTo w).A = s.A := rfl
@[simp] theorem State.jumpTo_B (w : Word) : (s.jumpTo w).B = s.B := rfl
@[simp] theorem State.jumpTo_C (w : Word) : (s.jumpTo w).C = s.C := rfl
@[simp] theorem State.jumpTo_D (w : Word) : (s.jumpTo w).D = s.D := rfl
@[simp] theorem State.jumpTo_E (w : Word) : (s.jumpTo w).E = s.E := rfl
@[simp] theorem State.jumpTo_H (w : Word) : (s.jumpTo w).H = s.H := rfl
@[simp] theorem State.jumpTo_L (w : Word) : (s.jumpTo w).L = s.L := rfl
@[simp] theorem State.jumpTo_pc (w : Word) : (s.jumpTo w).pc = w := rfl
@[simp] theorem State.jumpTo_sp (w : Word) : (s.jumpTo w).sp = s.sp := rfl
@[simp] theorem State.jumpTo_CY (w : Word) : (s.jumpTo w).CY = s.CY := rfl
@[simp] theorem State.jumpTo_AC (w : Word) : (s.jumpTo w).AC = s.AC := rfl
@[simp] theorem State.jumpTo_S (w : Word) : (s.jumpTo w).S = s.S := rfl
@[simp] theorem State.jumpTo_Z (w : Word) : (s.jumpTo w).Z = s.Z := rfl
@[simp] theorem State.jumpTo_P (w : Word) : (s.jumpTo w).P = s.P := rfl
@[simp] theorem State.jumpTo_mem (w : Word) : (s.jumpTo w).mem = s.mem := rfl

/-! ### setSp -/

@[simp] theorem State.setSp_A (w : Word) : (s.setSp w).A = s.A := rfl
@[simp] theorem State.setSp_B (w : Word) : (s.setSp w).B = s.B := rfl
@[simp] theorem State.setSp_C (w : Word) : (s.setSp w).C = s.C := rfl
@[simp] theorem State.setSp_D (w : Word) : (s.setSp w).D = s.D := rfl
@[simp] theorem State.setSp_E (w : Word) : (s.setSp w).E = s.E := rfl
@[simp] theorem State.setSp_H (w : Word) : (s.setSp w).H = s.H := rfl
@[simp] theorem State.setSp_L (w : Word) : (s.setSp w).L = s.L := rfl
@[simp] theorem State.setSp_pc (w : Word) : (s.setSp w).pc = s.pc := rfl
@[simp] theorem State.setSp_sp (w : Word) : (s.setSp w).sp = w := rfl
@[simp] theorem State.setSp_CY (w : Word) : (s.setSp w).CY = s.CY := rfl
@[simp] theorem State.setSp_AC (w : Word) : (s.setSp w).AC = s.AC := rfl
@[simp] theorem State.setSp_S (w : Word) : (s.setSp w).S = s.S := rfl
@[simp] theorem State.setSp_Z (w : Word) : (s.setSp w).Z = s.Z := rfl
@[simp] theorem State.setSp_P (w : Word) : (s.setSp w).P = s.P := rfl
@[simp] theorem State.setSp_mem (w : Word) : (s.setSp w).mem = s.mem := rfl

/-! ### pushPair -/

@[simp] theorem State.pushPair_A (hi lo : Byte) : (s.pushPair hi lo).A = s.A := rfl
@[simp] theorem State.pushPair_B (hi lo : Byte) : (s.pushPair hi lo).B = s.B := rfl
@[simp] theorem State.pushPair_C (hi lo : Byte) : (s.pushPair hi lo).C = s.C := rfl
@[simp] theorem State.pushPair_D (hi lo : Byte) : (s.pushPair hi lo).D = s.D := rfl
@[simp] theorem State.pushPair_E (hi lo : Byte) : (s.pushPair hi lo).E = s.E := rfl
@[simp] theorem State.pushPair_H (hi lo : Byte) : (s.pushPair hi lo).H = s.H := rfl
@[simp] theorem State.pushPair_L (hi lo : Byte) : (s.pushPair hi lo).L = s.L := rfl
@[simp] theorem State.pushPair_pc (hi lo : Byte) : (s.pushPair hi lo).pc = s.pc := rfl
@[simp] theorem State.pushPair_sp (hi lo : Byte) : (s.pushPair hi lo).sp = s.sp - 2 := rfl
@[simp] theorem State.pushPair_CY (hi lo : Byte) : (s.pushPair hi lo).CY = s.CY := rfl
@[simp] theorem State.pushPair_AC (hi lo : Byte) : (s.pushPair hi lo).AC = s.AC := rfl
@[simp] theorem State.pushPair_S (hi lo : Byte) : (s.pushPair hi lo).S = s.S := rfl
@[simp] theorem State.pushPair_Z (hi lo : Byte) : (s.pushPair hi lo).Z = s.Z := rfl
@[simp] theorem State.pushPair_P (hi lo : Byte) : (s.pushPair hi lo).P = s.P := rfl
@[simp] theorem State.pushPair_mem (hi lo : Byte) : (s.pushPair hi lo).mem = (s.mem.write (s.sp - 1) hi).write (s.sp - 2) lo := rfl

/-! ### setDcrFlags -/

@[simp] theorem State.setDcrFlags_A (res : Byte) : (s.setDcrFlags res).A = s.A := rfl
@[simp] theorem State.setDcrFlags_B (res : Byte) : (s.setDcrFlags res).B = s.B := rfl
@[simp] theorem State.setDcrFlags_C (res : Byte) : (s.setDcrFlags res).C = s.C := rfl
@[simp] theorem State.setDcrFlags_D (res : Byte) : (s.setDcrFlags res).D = s.D := rfl
@[simp] theorem State.setDcrFlags_E (res : Byte) : (s.setDcrFlags res).E = s.E := rfl
@[simp] theorem State.setDcrFlags_H (res : Byte) : (s.setDcrFlags res).H = s.H := rfl
@[simp] theorem State.setDcrFlags_L (res : Byte) : (s.setDcrFlags res).L = s.L := rfl
@[simp] theorem State.setDcrFlags_pc (res : Byte) : (s.setDcrFlags res).pc = s.pc := rfl
@[simp] theorem State.setDcrFlags_sp (res : Byte) : (s.setDcrFlags res).sp = s.sp := rfl
@[simp] theorem State.setDcrFlags_CY (res : Byte) : (s.setDcrFlags res).CY = s.CY := rfl
@[simp] theorem State.setDcrFlags_AC (res : Byte) : (s.setDcrFlags res).AC = dcrAuxCarry res := rfl
@[simp] theorem State.setDcrFlags_S (res : Byte) : (s.setDcrFlags res).S = dcrSign res := rfl
@[simp] theorem State.setDcrFlags_Z (res : Byte) : (s.setDcrFlags res).Z = dcrZero res := rfl
@[simp] theorem State.setDcrFlags_P (res : Byte) : (s.setDcrFlags res).P = s.P := rfl
@[simp] theorem State.setDcrFlags_mem (res : Byte) : (s.setDcrFlags res).mem = s.mem := rfl

/-! ### setHL -/

@[simp] theorem State.setHL_A (w : Word) : (s.setHL w).A = s.A := rfl
@[simp] theorem State.setHL_B (w : Word) : (s.setHL w).B = s.B := rfl
@[simp] theorem State.setHL_C (w : Word) : (s.setHL w).C = s.C := rfl
@[simp] theorem State.setHL_D (w : Word) : (s.setHL w).D = s.D := rfl
@[simp] theorem State.setHL_E (w : Word) : (s.setHL w).E = s.E := rfl
@[simp] theorem State.setHL_H (w : Word) : (s.setHL w).H = hiByte w := rfl
@[simp] theorem State.setHL_L (w : Word) : (s.setHL w).L = loByte w := rfl
@[simp] theorem State.setHL_pc (w : Word) : (s.setHL w).pc = s.pc := rfl
@[simp] theorem State.setHL_sp (w : Word) : (s.setHL w).sp = s.sp := rfl
@[simp] theorem State.setHL_CY (w : Word) : (s.setHL w).CY = s.CY := rfl
@[simp] theorem State.setHL_AC (w : Word) : (s.setHL w).AC = s.AC := rfl
@[simp] theorem State.setHL_S (w : Word) : (s.setHL w).S = s.S := rfl
@[simp] theorem State.setHL_Z (w : Word) : (s.setHL w).Z = s.Z := rfl
@[simp] theorem State.setHL_P (w : Word) : (s.setHL w).P = s.P := rfl
@[simp] theorem State.setHL_mem (w : Word) : (s.setHL w).mem = s.mem := rfl

/-! ### writeM -/

@[simp] theorem State.writeM_A (v : Byte) : (s.writeM v).A = s.A := rfl
@[simp] theorem State.writeM_B (v : Byte) : (s.writeM v).B = s.B := rfl
@[simp] theorem State.writeM_C (v : Byte) : (s.writeM v).C = s.C := rfl
@[simp] theorem State.writeM_D (v : Byte) : (s.writeM v).D = s.D := rfl
@[simp] theorem State.writeM_E (v : Byte) : (s.writeM v).E = s.E := rfl
@[simp] theorem State.writeM_H (v : Byte) : (s.writeM v).H = s.H := rfl
@[simp] theorem State.writeM_L (v : Byte) : (s.writeM v).L = s.L := rfl
@[simp] theorem State.writeM_pc (v : Byte) : (s.writeM v).pc = s.pc := rfl
@[simp] theorem State.writeM_sp (v : Byte) : (s.writeM v).sp = s.sp := rfl
@[simp] theorem State.writeM_CY (v : Byte) : (s.writeM v).CY = s.CY := rfl
@[simp] theorem State.writeM_AC (v : Byte) : (s.writeM v).AC = s.AC := rfl
@[simp] theorem State.writeM_S (v : Byte) : (s.writeM v).S = s.S := rfl
@[simp] theorem State.writeM_Z (v : Byte) : (s.writeM v).Z = s.Z := rfl
@[simp] theorem State.writeM_P (v : Byte) : (s.writeM v).P = s.P := rfl
@[simp] theorem State.writeM_mem (v : Byte) : (s.writeM v).mem = s.mem.write s.HL v := rfl

/-! ### setReg and setFlag -/

@[simp] theorem State.setReg_A (v : Byte) : s.setReg .A v = { s with A := v } := rfl
@[simp] theorem State.setReg_B (v : Byte) : s.setReg .B v = { s with B := v } := rfl
@[simp] theorem State.setReg_C (v : Byte) : s.setReg .C v = { s with C := v } := rfl
@[simp] theorem State.setReg_D (v : Byte) : s.setReg .D v = { s with D := v } := rfl
@[simp] theorem State.setReg_E (v : Byte) : s.setReg .E v = { s with E := v } := rfl
@[simp] theorem State.setReg_H (v : Byte) : s.setReg .H v = { s with H := v } := rfl
@[simp] theorem State.setReg_L (v : Byte) : s.setReg .L v = { s with L := v } := rfl
@[simp] theorem State.setFlag_CY (v : Bool) : s.setFlag .CY v = { s with CY := v } := rfl
@[simp] theorem State.setFlag_AC (v : Bool) : s.setFlag .AC v = { s with AC := v } := rfl
@[simp] theorem State.setFlag_S (v : Bool) : s.setFlag .S v = { s with S := v } := rfl
@[simp] theorem State.setFlag_Z (v : Bool) : s.setFlag .Z v = { s with Z := v } := rfl
@[simp] theorem State.setFlag_P (v : Bool) : s.setFlag .P v = { s with P := v } := rfl
@[simp] theorem State.setReg_pc_field (r : Reg) (v : Byte) : (s.setReg r v).pc = s.pc := by cases r <;> rfl
@[simp] theorem State.setReg_sp_field (r : Reg) (v : Byte) : (s.setReg r v).sp = s.sp := by cases r <;> rfl
@[simp] theorem State.setReg_CY_field (r : Reg) (v : Byte) : (s.setReg r v).CY = s.CY := by cases r <;> rfl
@[simp] theorem State.setReg_AC_field (r : Reg) (v : Byte) : (s.setReg r v).AC = s.AC := by cases r <;> rfl
@[simp] theorem State.setReg_S_field (r : Reg) (v : Byte) : (s.setReg r v).S = s.S := by cases r <;> rfl
@[simp] theorem State.setReg_Z_field (r : Reg) (v : Byte) : (s.setReg r v).Z = s.Z := by cases r <;> rfl
@[simp] theorem State.setReg_P_field (r : Reg) (v : Byte) : (s.setReg r v).P = s.P := by cases r <;> rfl
@[simp] theorem State.setReg_mem_field (r : Reg) (v : Byte) : (s.setReg r v).mem = s.mem := by cases r <;> rfl
@[simp] theorem State.setFlag_A_field (g : Flag) (v : Bool) : (s.setFlag g v).A = s.A := by cases g <;> rfl
@[simp] theorem State.setFlag_B_field (g : Flag) (v : Bool) : (s.setFlag g v).B = s.B := by cases g <;> rfl
@[simp] theorem State.setFlag_C_field (g : Flag) (v : Bool) : (s.setFlag g v).C = s.C := by cases g <;> rfl
@[simp] theorem State.setFlag_D_field (g : Flag) (v : Bool) : (s.setFlag g v).D = s.D := by cases g <;> rfl
@[simp] theorem State.setFlag_E_field (g : Flag) (v : Bool) : (s.setFlag g v).E = s.E := by cases g <;> rfl
@[simp] theorem State.setFlag_H_field (g : Flag) (v : Bool) : (s.setFlag g v).H = s.H := by cases g <;> rfl
@[simp] theorem State.setFlag_L_field (g : Flag) (v : Bool) : (s.setFlag g v).L = s.L := by cases g <;> rfl
@[simp] theorem State.setFlag_pc_field (g : Flag) (v : Bool) : (s.setFlag g v).pc = s.pc := by cases g <;> rfl
@[simp] theorem State.setFlag_sp_field (g : Flag) (v : Bool) : (s.setFlag g v).sp = s.sp := by cases g <;> rfl
@[simp] theorem State.setFlag_mem_field (g : Flag) (v : Bool) : (s.setFlag g v).mem = s.mem := by cases g <;> rfl

/-- A register reads as what was last written to it. -/
@[simp] theorem State.getReg_setReg_same (r : Reg) (v : Byte) : (s.setReg r v).getReg r = v := by cases r <;> rfl

/-- Writing a register leaves every other register alone. -/
theorem State.getReg_setReg_other {r q : Reg} (h : q ≠ r) (v : Byte) : (s.setReg r v).getReg q = s.getReg q := by
  cases r <;> cases q <;> first | rfl | exact absurd rfl h

/-- A flag reads as what was last written to it. -/
@[simp] theorem State.getFlag_setFlag_same (f : Flag) (v : Bool) : (s.setFlag f v).getFlag f = v := by cases f <;> rfl

/-- Writing a flag leaves every other flag alone. -/
theorem State.getFlag_setFlag_other {f g : Flag} (h : g ≠ f) (v : Bool) : (s.setFlag f v).getFlag g = s.getFlag g := by
  cases f <;> cases g <;> first | rfl | exact absurd rfl h

end Sys2Proof.Machine
end

