-- ==== Sys2Proof/Laws/Ops.lean ====
section
/-! SUPPORT. One lemma per shared operation that says what it does, for later proofs to cite. -/

namespace Sys2Proof.Machine

/-! ### Bytes and words -/

@[simp] theorem wordOf_toNat (h l : Byte) : (wordOf h l).toNat = h.toNat * 256 + l.toNat := by
  have hl := l.isLt
  simp only [wordOf, BitVec.toNat_append, Nat.shiftLeft_eq]
  rw [← Nat.shiftLeft_eq, ← Nat.shiftLeft_add_eq_or_of_lt hl, Nat.shiftLeft_eq]

@[simp] theorem hiByte_toNat (w : Word) : (hiByte w).toNat = w.toNat / 256 := by
  have := w.isLt
  simp only [hiByte, BitVec.extractLsb'_toNat, Nat.shiftRight_eq_div_pow]
  omega

@[simp] theorem loByte_toNat (w : Word) : (loByte w).toNat = w.toNat % 256 := by
  simp [loByte, BitVec.extractLsb'_toNat]

@[simp] theorem hiByte_wordOf (h l : Byte) : hiByte (wordOf h l) = h := by
  apply BitVec.eq_of_toNat_eq
  have := l.isLt
  simp only [hiByte_toNat, wordOf_toNat]
  omega

@[simp] theorem loByte_wordOf (h l : Byte) : loByte (wordOf h l) = l := by
  apply BitVec.eq_of_toNat_eq
  have := l.isLt
  simp only [loByte_toNat, wordOf_toNat]
  omega

@[simp] theorem wordOf_hiByte_loByte (w : Word) : wordOf (hiByte w) (loByte w) = w := by
  apply BitVec.eq_of_toNat_eq
  simp only [hiByte_toNat, loByte_toNat, wordOf_toNat]
  omega

/-- `u8` reduces modulo 256 (00_scope.md R7). -/
theorem u8_toNat (x : Int) : ((u8 x).toNat : Int) = x % 256 := by
  simp only [u8, BitVec.toNat_ofInt]
  omega

/-- `u16` reduces modulo 65536 (00_scope.md R7). -/
theorem u16_toNat (x : Int) : ((u16 x).toNat : Int) = x % 65536 := by
  simp only [u16, BitVec.toNat_ofInt]
  omega

/-- `u16(a + k)` is the sum of words. -/
theorem u16_add (a : Word) (k : Nat) : u16 (a.toNat + k) = a + BitVec.ofNat 16 k := by
  apply BitVec.eq_of_toNat_eq
  have := u16_toNat (a.toNat + k)
  simp only [BitVec.toNat_add, BitVec.toNat_ofNat]
  omega

/-- `u16(a - k)` is the difference of words. -/
theorem u16_sub (a : Word) (k : Nat) : u16 (a.toNat - k) = a - BitVec.ofNat 16 k := by
  apply BitVec.eq_of_toNat_eq
  have h := u16_toNat (a.toNat - k)
  have := a.isLt
  simp only [BitVec.toNat_sub, BitVec.toNat_ofNat]
  omega

/-! ### Memory through the state -/

@[simp] theorem State.readByte_writeByte_same (s : State) (a : Word) (v : Byte) : (s.writeByte a v).readByte a = v :=
  s.mem.read_write_same a v

theorem State.readByte_writeByte_other (s : State) {a b : Word} (h : b ≠ a) (v : Byte) :
    (s.writeByte a v).readByte b = s.readByte b :=
  s.mem.read_write_other h v

/-- The two addresses of a push differ. -/
theorem pushed_addresses_differ (w : Word) : w - 1 ≠ w - 2 := by
  bv_omega

/-- What a push leaves in memory: the two bytes, and every other byte as before (42_stack.md R130). -/
theorem State.pushPair_read (s : State) (hi lo : Byte) (a : Word) :
    (s.pushPair hi lo).readByte a = if a = s.sp - 2 then lo else if a = s.sp - 1 then hi else s.readByte a := by
  simp [State.readByte, Memory.read_write]

/-- A push changes memory and `sp` alone. -/
theorem State.pushPair_eq (s : State) (hi lo : Byte) :
    s.pushPair hi lo = { s with sp := s.sp - 2, mem := (s.mem.write (s.sp - 1) hi).write (s.sp - 2) lo } := rfl

/-- A push keeps the canonical form of memory. -/
theorem State.pushPair_wf (s : State) (hi lo : Byte) (h : s.mem.wf = true) : (s.pushPair hi lo).mem.wf = true :=
  Memory.wf_write _ _ _ (Memory.wf_write _ _ _ h)

/-! ### The dispatcher -/

/-- On a byte outside the table a step raises the exception and nothing else. -/
theorem dispatchNext_of_lookup_none {s : State} (h : lookup s.fetchOpcode = none) :
    dispatchNext s = raiseUnknownOpcode s.fetchOpcode s.pc := by
  simp [dispatchNext, h]

/-- On a byte of the table a step is its row's handler. -/
theorem dispatchNext_of_lookup_some {s : State} {d : Descriptor} (h : lookup s.fetchOpcode = some d) :
    dispatchNext s = runHandler d s := by
  simp [dispatchNext, h]

/-- A lookup answers a row of the table under the byte asked for. -/
theorem mem_dispatchTable_of_lookup {op : Byte} {d : Descriptor} (h : lookup op = some d) : (op, d) ∈ dispatchTable := by
  simp only [lookup, dispatchTable, List.lookup_cons] at h
  simp only [dispatchTable, List.mem_cons]
  repeat' (split at h; · rename_i e; simp only [beq_iff_eq] at e; subst e; cases h; simp)
  simp at h

end Sys2Proof.Machine
end

