-- ==== Sys2Proof/Laws/Exec.lean ====
section
/-! SUPPORT. One lemma per meaning: the next state it answers, with the fields it writes. Later proofs cite these instead of unfolding
the meanings. -/

namespace Sys2Proof.Machine

variable (s : State)

/-! ### Operands read by the dispatcher -/

@[simp] theorem operandFetched_f1 (i : Instr) : operandFetched (.f1 i) s = i := rfl

/-- After the advance, the D8 of a two-byte instruction is the byte after its opcode. -/
theorem operandFetched_f2 (mk : Byte → Instr) : operandFetched (.f2 mk) (s.advancePc 2) = mk (s.readByte (s.pc + 1)) := by
  have h : s.pc + BitVec.ofNat 16 2 - 1 = s.pc + 1 := by bv_omega
  simp only [operandFetched, State.immediate8, State.advancePc_pc, h]
  rfl

/-- After the advance, the D16 of a three-byte instruction is the two bytes after its opcode, low byte first. -/
theorem operandFetched_f3 (mk : Word → Instr) :
    operandFetched (.f3 mk) (s.advancePc 3) = mk (wordOf (s.readByte (s.pc + 2)) (s.readByte (s.pc + 1))) := by
  have h : s.pc + BitVec.ofNat 16 3 - 2 = s.pc + 1 := by bv_omega
  have h' : s.pc + 1 + 1 = s.pc + 2 := by bv_omega
  simp only [operandFetched, State.immediate16, State.readWord, State.advancePc_pc, h, h']
  rfl

/-- What the reply is on a byte of the table. -/
theorem executeNext_of_lookup_some {d : Descriptor} (h : lookup s.fetchOpcode = some d) :
    executeNext s = replyTo s d.cycles (runHandler d s) := by
  simp only [executeNext, h]

/-- What the reply is on a byte outside it. -/
theorem executeNext_of_lookup_none (h : lookup s.fetchOpcode = none) :
    executeNext s = (s, .err (.unknownOpcode s.fetchOpcode s.pc)) := by
  simp only [executeNext, h]

/-! ### The meanings -/

theorem moveImmediate_eq (r : Reg) (d8 : Byte) : moveImmediate r d8 s = .next (s.setReg r d8) := rfl

theorem execJc_eq (addr : Word) : execJc addr s = .next (s.jumpTo (if s.CY then addr else s.pc)) := by
  by_cases h : s.CY = true <;> simp only [execJc, State.carrySet, h] <;> rfl

theorem execJnc_eq (addr : Word) : execJnc addr s = .next (s.jumpTo (if s.CY then s.pc else addr)) := by
  by_cases h : s.CY = true <;> simp only [execJnc, State.carryClear, h] <;> rfl

theorem execCall_eq (addr : Word) :
    execCall addr s =
      .next { s with
        pc := addr
        sp := s.sp - 2
        mem := (s.mem.write (s.sp - 1) (hiByte s.pc)).write (s.sp - 2) (loByte s.pc) } := rfl

theorem execLxiH_eq (d16 : Word) : execLxiH d16 s = .next { s with H := hiByte d16, L := loByte d16 } := rfl

theorem execMviM_eq (d8 : Byte) : execMviM d8 s = .next { s with mem := s.mem.write s.HL d8 } := rfl

theorem execSta_eq (addr : Word) : execSta addr s = .next { s with mem := s.mem.write addr s.A } := rfl

theorem execDcrM_eq :
    execDcrM s =
      .next { s with
        mem := s.mem.write s.HL (decrement s.readM)
        AC := dcrAuxCarry (decrement s.readM)
        Z := dcrZero (decrement s.readM)
        S := dcrSign (decrement s.readM) } := rfl

theorem execRrc_eq : execRrc s = .next { s with A := rotateRight s.A, CY := rrcCarry s.A } := rfl

end Sys2Proof.Machine
end

