-- ==== Sys2Proof/Tests/Slice0.lean ====
section
/-! SUPPORT. The model's own tests. Expected values come from spec/95_test_vectors.md (named in each comment) or are worked out from the
rule named; then the witnesses that the hypotheses of the statements can be met. -/

namespace Sys2Proof.Tests

open Sys2Proof.Machine

/-- The constructed core with `bytes` at `a` and `pc` there. -/
def code (a : Word) (bytes : List Byte) : State := { State.reset.placeBytes a bytes with pc := a }

/-! ### WellFormed: an ill-formed written instruction for each check -/

/-- 30_encoding.md R71: D8 at most 0xFF. -/
theorem test_d8_out_of_range : SourceInstr.wellFormed (fun _ => true) ⟨.MVI, [.reg .A, .number 0x100]⟩ = false := by decide
/-- 30_encoding.md R71: D16 at most 0xFFFF. -/
theorem test_d16_out_of_range : SourceInstr.wellFormed (fun _ => true) ⟨.LXI, [.reg .H, .number 0x10000]⟩ = false := by decide
/-- 30_encoding.md R71: addr at most 0xFFFF. -/
theorem test_addr_out_of_range : SourceInstr.wellFormed (fun _ => true) ⟨.JMP, [.number 0x10000]⟩ = false := by decide
/-- An undefined label. -/
theorem test_undefined_label : SourceInstr.wellFormed (fun _ => false) ⟨.CALL, [.label "sub"]⟩ = false := by decide
/-- A register where an address stands. -/
theorem test_register_as_address : SourceInstr.wellFormed (fun _ => true) ⟨.STA, [.reg .A]⟩ = false := by decide
/-- 30_encoding.md R70: PUSH takes B, D, H. -/
theorem test_push_a : SourceInstr.wellFormed (fun _ => true) ⟨.PUSH, [.reg .A]⟩ = false := by decide
/-- 30_encoding.md R70: LXI takes H alone. -/
theorem test_lxi_b : SourceInstr.wellFormed (fun _ => true) ⟨.LXI, [.reg .B, .number 0]⟩ = false := by decide
/-- 30_encoding.md R70: DCR takes M alone. -/
theorem test_dcr_b : SourceInstr.wellFormed (fun _ => true) ⟨.DCR, [.reg .B]⟩ = false := by decide
/-- A wrong number of operands. -/
theorem test_nop_with_operand : SourceInstr.wellFormed (fun _ => true) ⟨.NOP, [.number 0]⟩ = false := by decide
/-- The largest literals are in range. -/
theorem test_largest_literals : SourceInstr.wellFormed (fun _ => false) ⟨.MVI, [.reg .M, .number 0xFF]⟩ = true ∧
    SourceInstr.wellFormed (fun _ => false) ⟨.JNC, [.number 0xFFFF]⟩ = true := by decide

/-! ### Decode: every constructor from a word written out from 30_encoding.md R61 and R62 -/

theorem test_decode_nop : decode [0b00000000#8] = .ok (.nop, []) := rfl
theorem test_decode_mviB : decode [0b00000110#8, 0xA1#8] = .ok (.mviB 0xA1#8, []) := rfl
theorem test_decode_mviC : decode [0b00001110#8, 0xA2#8] = .ok (.mviC 0xA2#8, []) := rfl
theorem test_decode_rrc : decode [0b00001111#8] = .ok (.rrc, []) := rfl
theorem test_decode_mviD : decode [0b00010110#8, 0xA3#8] = .ok (.mviD 0xA3#8, []) := rfl
theorem test_decode_mviE : decode [0b00011110#8, 0xA4#8] = .ok (.mviE 0xA4#8, []) := rfl
theorem test_decode_lxiH : decode [0b00100001#8, 0xCD#8, 0xAB#8] = .ok (.lxiH 0xABCD#16, []) := rfl
theorem test_decode_mviH : decode [0b00100110#8, 0xA5#8] = .ok (.mviH 0xA5#8, []) := rfl
theorem test_decode_mviL : decode [0b00101110#8, 0xA6#8] = .ok (.mviL 0xA6#8, []) := rfl
theorem test_decode_sta : decode [0b00110010#8, 0x00#8, 0x01#8] = .ok (.sta 0x0100#16, []) := rfl
theorem test_decode_dcrM : decode [0b00110101#8] = .ok (.dcrM, []) := rfl
theorem test_decode_mviM : decode [0b00110110#8, 0x03#8] = .ok (.mviM 0x03#8, []) := rfl
theorem test_decode_mviA : decode [0b00111110#8, 0xA7#8] = .ok (.mviA 0xA7#8, []) := rfl
theorem test_decode_jmp : decode [0b11000011#8, 0x33#8, 0x44#8] = .ok (.jmp 0x4433#16, []) := rfl
theorem test_decode_pushB : decode [0b11000101#8, 0xFF#8] = .ok (.pushB, [0xFF#8]) := rfl
theorem test_decode_call : decode [0b11001101#8, 0x04#8, 0x00#8] = .ok (.call 0x0004#16, []) := rfl
theorem test_decode_jnc : decode [0b11010010#8, 0x02#8, 0x00#8] = .ok (.jnc 0x0002#16, []) := rfl
theorem test_decode_pushD : decode [0b11010101#8] = .ok (.pushD, []) := rfl
theorem test_decode_jc : decode [0b11011010#8, 0x34#8, 0x12#8] = .ok (.jc 0x1234#16, []) := rfl
theorem test_decode_pushH : decode [0b11100101#8] = .ok (.pushH, []) := rfl
/-- 30_encoding.md R67: RET is illegal here. -/
theorem test_decode_illegal : decode [0xC9#8] = .error (.unknownOpcode 0xC9#8) := rfl
theorem test_decode_truncated : decode [0xC3#8, 0x33#8] = .error (.truncated 0xC3#8) ∧ decode [] = .error .noOpcode := ⟨rfl, rfl⟩
/-- The table's numbering: the second byte is bits 15..8. -/
theorem test_decodeTableWord : decodeTableWord 24 0x4433C3 = some (.jmp 0x4433#16) ∧ decodeTableWord 8 0xC3 = some (.jmp 0x0000#16) ∧
    decodeTableWord 8 0x76 = none := by decide
/-- 40_dispatch.md R83: no opcode has two rows, and there are twenty (00_scope.md R6). -/
theorem test_table_unambiguous : (dispatchTable.map (·.1)).Nodup ∧ dispatchTable.length = Config.definedOpcodes := by decide

/-! ### One step each -/

/-- V-NOP-1. -/
theorem test_nop : executeNext { code 0x0100 [0x00] with A := 0xFF, CY := true, P := true } =
    ({ code 0x0100 [0x00] with A := 0xFF, CY := true, P := true, pc := 0x0101 }, .ok 4) := by decide
/-- W3. -/
theorem test_jmp : executeNext (code 0 [0xC3, 0x33, 0x44]) = ({ code 0 [0xC3, 0x33, 0x44] with pc := 0x4433 }, .ok 10) := by decide
/-- V-JMP-2: the operand wraps. -/
theorem test_jmp_wraps : executeNext (code 0xFFFE [0xC3, 0x34, 0x12]) =
    ({ code 0xFFFE [0xC3, 0x34, 0x12] with pc := 0x1234 }, .ok 10) := by decide
/-- W6. -/
theorem test_call : executeNext { code 0 [0xCD, 0x04, 0x00] with sp := 0x0004 } =
    ({ State.reset with pc := 0x0004, sp := 0x0002, mem := [(0, 0xCD), (1, 0x04), (2, 0x03)] }, .ok 17) := by decide
/-- V-CALL-1: the push overwrites both target bytes after they were read. -/
theorem test_call_overwrites_itself : executeNext { code 0 [0xCD, 0x34, 0x12] with sp := 0x0003 } =
    ({ State.reset with pc := 0x1234, sp := 0x0001, mem := [(0, 0xCD), (1, 0x03)] }, .ok 17) := by decide
/-- V-JC-1 and V-JC-2. -/
theorem test_jc : executeNext { code 0x0100 [0xDA, 0x34, 0x12] with CY := true } =
    ({ code 0x0100 [0xDA, 0x34, 0x12] with CY := true, pc := 0x1234 }, .ok 10) := by decide
theorem test_jc_falls_through : executeNext (code 0x0100 [0xDA, 0x34, 0x12]) =
    ({ code 0x0100 [0xDA, 0x34, 0x12] with pc := 0x0103 }, .ok 10) := by decide
/-- V-JNC-1 and V-JNC-2. -/
theorem test_jnc : executeNext (code 0x0100 [0xD2, 0x34, 0x12]) =
    ({ code 0x0100 [0xD2, 0x34, 0x12] with pc := 0x1234 }, .ok 10) := by decide
theorem test_jnc_falls_through : executeNext { code 0x0100 [0xD2, 0x34, 0x12] with CY := true } =
    ({ code 0x0100 [0xD2, 0x34, 0x12] with CY := true, pc := 0x0103 }, .ok 10) := by decide
/-- W4. -/
theorem test_pushB : executeNext { code 0 [0xC5] with B := 0xBB, C := 0xCC, sp := 3 } =
    ({ State.reset with B := 0xBB, C := 0xCC, sp := 1, pc := 1, mem := [(0, 0xC5), (1, 0xCC), (2, 0xBB)] }, .ok 11) := by decide
/-- V-PSH-3: the stack wraps. -/
theorem test_pushB_wraps : executeNext { code 0 [0xC5] with B := 0x12, C := 0x34 } =
    ({ State.reset with B := 0x12, C := 0x34, sp := 0xFFFE, pc := 1, mem := [(0, 0xC5), (0xFFFE, 0x34), (0xFFFF, 0x12)] },
      .ok 11) := by decide
/-- V-PSH-1. -/
theorem test_pushD : executeNext { code 0 [0xD5] with D := 0x12, E := 0x34, sp := 0x2000 } =
    ({ State.reset with D := 0x12, E := 0x34, sp := 0x1FFE, pc := 1, mem := [(0, 0xD5), (0x1FFE, 0x34), (0x1FFF, 0x12)] },
      .ok 11) := by decide
/-- V-PSH-4 and V-PSH-6. -/
theorem test_pushH : executeNext { code 0x0100 [0xE5] with H := 0xAB, L := 0xCD, sp := 1 } =
    ({ State.reset with H := 0xAB, L := 0xCD, sp := 0xFFFF, pc := 0x0101, mem := [(0, 0xAB), (0x0100, 0xE5), (0xFFFF, 0xCD)] },
      .ok 11) := by decide
theorem test_pushH_over_HL : executeNext { code 0 [0xE5] with L := 0x02, sp := 3 } =
    ({ State.reset with L := 0x02, sp := 1, pc := 1, mem := [(0, 0xE5), (1, 0x02)] }, .ok 11) := by decide
/-- V-MVI-B to V-MVI-A. -/
theorem test_mviB : executeNext (code 0 [0x06, 0xA1]) = ({ code 0 [0x06, 0xA1] with B := 0xA1, pc := 2 }, .ok 7) := by decide
theorem test_mviC : executeNext (code 0 [0x0E, 0xA2]) = ({ code 0 [0x0E, 0xA2] with C := 0xA2, pc := 2 }, .ok 7) := by decide
theorem test_mviD : executeNext (code 0 [0x16, 0xA3]) = ({ code 0 [0x16, 0xA3] with D := 0xA3, pc := 2 }, .ok 7) := by decide
theorem test_mviE : executeNext (code 0 [0x1E, 0xA4]) = ({ code 0 [0x1E, 0xA4] with E := 0xA4, pc := 2 }, .ok 7) := by decide
theorem test_mviH : executeNext { code 0 [0x26, 0xA5] with L := 0x55 } =
    ({ code 0 [0x26, 0xA5] with H := 0xA5, L := 0x55, pc := 2 }, .ok 7) := by decide
theorem test_mviL : executeNext { code 0 [0x2E, 0xA6] with H := 0x20 } =
    ({ code 0 [0x2E, 0xA6] with H := 0x20, L := 0xA6, pc := 2 }, .ok 7) := by decide
theorem test_mviA : executeNext (code 0 [0x3E, 0xA7]) = ({ code 0 [0x3E, 0xA7] with A := 0xA7, pc := 2 }, .ok 7) := by decide
/-- V-MVI-W: the immediate wraps. -/
theorem test_mviA_wraps : executeNext (code 0xFFFF [0x3E, 0x5A]) =
    ({ code 0xFFFF [0x3E, 0x5A] with A := 0x5A, pc := 1 }, .ok 7) := by decide
/-- V-MVM-1 and V-MVM-2: over its own opcode, the cell leaves the list. -/
theorem test_mviM : executeNext { code 3 [0x36, 0x03] with H := 0x20 } =
    ({ State.reset with H := 0x20, pc := 5, mem := [(3, 0x36), (4, 0x03), (0x2000, 0x03)] }, .ok 10) := by decide
theorem test_mviM_over_itself : executeNext (code 0 [0x36, 0x00]) = ({ State.reset with pc := 2 }, .ok 10) := by decide
/-- V-STA-2 and V-STA-3. -/
theorem test_sta_over_its_address : executeNext { code 0 [0x32, 0x01, 0x00] with A := 0x99 } =
    ({ State.reset with A := 0x99, pc := 3, mem := [(0, 0x32), (1, 0x99)] }, .ok 13) := by decide
theorem test_sta_at_the_top : executeNext { code 0 [0x32, 0xFF, 0xFF] with A := 0x42 } =
    ({ State.reset with A := 0x42, pc := 3, mem := [(0, 0x32), (1, 0xFF), (2, 0xFF), (0xFFFF, 0x42)] }, .ok 13) := by decide
/-- V-LXI-2 and V-LXI-3. -/
theorem test_lxiH : executeNext (code 0 [0x21, 0xCD, 0xAB]) =
    ({ code 0 [0x21, 0xCD, 0xAB] with H := 0xAB, L := 0xCD, pc := 3 }, .ok 10) := by decide
theorem test_lxiH_wraps : executeNext (code 0xFFFE [0x21, 0xCD, 0xAB]) =
    ({ code 0xFFFE [0x21, 0xCD, 0xAB] with H := 0xAB, L := 0xCD, pc := 1 }, .ok 10) := by decide
/-- V-DCR-2: below zero, CY and P kept. -/
theorem test_dcrM_below_zero : executeNext { code 0 [0x35] with H := 0x20, CY := true, P := true } =
    ({ State.reset with H := 0x20, CY := true, P := true, S := true, pc := 1, mem := [(0, 0x35), (0x2000, 0xFF)] }, .ok 10) := by
  decide
/-- V-DCR-1 to V-DCR-8: AC, Z and S by the result. -/
theorem test_dcrM_flags : [0x00#8, 0xFF#8, 0x7F#8, 0x0F#8, 0x10#8, 0x01#8, 0xFE#8, 0x80#8].map
      (fun r => (dcrAuxCarry r, dcrZero r, dcrSign r)) =
    [(true, true, false), (false, false, true), (false, false, false), (false, false, false), (true, false, false),
      (false, false, false), (false, false, true), (true, false, true)] := by decide
/-- V-RRC-1 and V-RRC-2. -/
theorem test_rrc : executeNext { code 0 [0x0F] with A := 0xF2, CY := true } =
    ({ code 0 [0x0F] with A := 0x79, pc := 1 }, .ok 4) := by decide
theorem test_rrc_sets_carry : executeNext { code 0 [0x0F] with A := 0x01 } =
    ({ code 0 [0x0F] with A := 0x80, CY := true, pc := 1 }, .ok 4) := by decide
/-- V-DSP-2: the state is as it was. -/
theorem test_unknown_opcode : executeNext (code 5 [0x76]) = (code 5 [0x76], .err (.unknownOpcode 0x76 0x0005)) := by decide
/-- V-MEM-2. -/
theorem test_read_word_wraps : ((State.reset.writeByte 0xFFFF 0xCD).writeByte 0x0000 0xAB).readBytes 2 0xFFFF = .ok 0xABCD := by decide
/-- 00_scope.md R7. -/
theorem test_u16_below_zero : u16 (0 - 1) = 0xFFFF#16 ∧ u8 256 = 0x00#8 := by decide
/-- A fetched word is what the next step runs. -/
theorem test_withFetchWord : (executeNext (State.reset.withFetchWord 16 0x1206)).1.B = 0x12#8 := by decide

/-! ### The assembler on the text of programs of 95_test_vectors.md -/

/-- P1: its text gives its listed bytes. -/
theorem test_assemble_P1 : assembleText 0x0000
    "start: MVI A,0x10
loop:  RRC
       JNC loop  ; taken while CY = 0
       STA 0x0100
stop:  JMP stop" =
    some [0x3E, 0x10, 0x0F, 0xD2, 0x02, 0x00, 0x32, 0x00, 0x01, 0xC3, 0x09, 0x00] := by decide
/-- 30_encoding.md R71: a D8 out of range does not assemble. -/
theorem test_assemble_out_of_range : assembleText 0x0000 "MVI A,0x100" = none := by decide

/-! ### Witnesses: the hypotheses of each statement can be met -/

theorem witness_DecodedBytesAreTheEncoding : decode [0xC3, 0x33, 0x44, 0x00] = .ok (.jmp 0x4433, [0x00]) := rfl
theorem witness_LengthIsFixedByTheOpcode : (Instr.mviB 1).opcode = (Instr.mviB 2).opcode := rfl
theorem witness_IllegalBytesRaiseUnknownOpcode : illegalValue ((code 0xFFFF [0x01]).readByte 0xFFFF).toNat = true ∧
    illegalValue ((code 0 [0xFF]).readByte 0).toNat = true := by decide
theorem witness_LengthCountsTheOperandBytes :
    (lookup 0x00).map (·.build) = some (.f1 .nop) ∧ (lookup 0x06).map (·.build) = some (.f2 .mviB) ∧
    (lookup 0xE5).map (·.build) = some (.f1 .pushH) ∧ (lookup 0xC3).map (·.build) = some (.f3 .jmp) ∧
    decode [0x06, 0x12] = .ok (.mviB 0x12, []) := ⟨rfl, rfl, rfl, rfl, rfl⟩
theorem witness_StepRunsTheDecodedInstruction :
    decode ((code 0xFFFF [0x06, 0x12]).bytesAt (code 0xFFFF [0x06, 0x12]).pc) = .ok (.mviB 0x12, [0x00]) := rfl
theorem witness_StepRunsTheEncodedInstruction :
    (code 0xFFFE [0xC3, 0x34, 0x12]).holdsAt (code 0xFFFE [0xC3, 0x34, 0x12]).pc (encode (.jmp 0x1234)) := ⟨rfl, rfl, rfl, trivial⟩
theorem witness_UnknownOpcodeWritesNoState : lookup ((code 5 [0x76]).readByte (code 5 [0x76]).pc) = none := rfl
theorem witness_OnlyTheDispatcherRaises : step (code 5 [0x76]) = .fault (.unknownOpcode 0x76 5) ∧
    ∃ d, lookup (State.reset.readByte State.reset.pc) = some d := ⟨rfl, _, rfl⟩
theorem witness_CycleCostIsFixedPerOpcode : ((0xE5 : Byte), 11) ∈ publishedCosts ∧ (code 0 [0xE5]).readByte (code 0 [0xE5]).pc = 0xE5 ∧
    executeNext State.reset = ({ State.reset with pc := 1 }, .ok 4) := by decide
theorem witness_FailedStepRepeats : executeNext (code 5 [0x76]) = (code 5 [0x76], .err (.unknownOpcode 0x76 5)) := by decide
theorem witness_FinalProgramCounter : decode ((code 0xFFFF [0x00]).bytesAt (code 0xFFFF [0x00]).pc) = .ok (.nop, [0x00, 0x00]) ∧
    step (code 0xFFFF [0x00]) = .next { code 0xFFFF [0x00] with pc := 0 } := ⟨rfl, rfl⟩
theorem witness_FetchWrapsAtTheTopOfMemory :
    ((code 0xFFFF [0x00]).pc = 0xFFFF ∧ (code 0xFFFF [0x00]).readByte 0xFFFF = 0x00) ∧
    ((code 0xFFFE [0xC3]).pc = 0xFFFE ∧ (code 0xFFFE [0xC3]).readByte 0xFFFE = 0xC3) ∧
    ((code 0xFFFF [0x21]).pc = 0xFFFF ∧ (code 0xFFFF [0x21]).readByte 0xFFFF = 0x21) ∧
    ((code 0xFFFD [0xDA]).pc = 0xFFFD ∧ (code 0xFFFD [0xDA]).readByte 0xFFFD = 0xDA ∧ (code 0xFFFD [0xDA]).CY = false) := by decide
/-- Every opcode can stand at the program counter, at the top of memory and at 0: the hypotheses of the statements about one
instruction's step (NOP to RRC). -/
theorem witness_opcode_at_pc (op : Byte) : (code 0xFFFF [op]).readByte (code 0xFFFF [op]).pc = op ∧
    (code 0 [op]).readByte (code 0 [op]).pc = op := ⟨State.readByte_writeByte_same _ _ _, State.readByte_writeByte_same _ _ _⟩
theorem witness_JcJumpsOnCarry : ({ State.reset with CY := true } : State).CY = true ∧ State.reset.CY = false := ⟨rfl, rfl⟩
theorem witness_JncJumpsOnNoCarry : State.reset.CY = false ∧ ({ State.reset with CY := true } : State).CY = true := ⟨rfl, rfl⟩
theorem witness_CallReadsItsTargetBeforeThePush :
    ({ code 0 [0xCD, 0x34, 0x12] with sp := 3 } : State).readByte 0 = 0xCD ∧
    ({ code 0 [0xCD, 0x34, 0x12] with sp := 3 } : State).sp = ({ code 0 [0xCD, 0x34, 0x12] with sp := 3 } : State).pc + 3 := by decide
theorem witness_StackWrapsAtZero : State.reset.sp = 0 ∧ (State.reset.setSp 1).sp = 1 ∧ (State.reset.setSp 2).sp = 2 := ⟨rfl, rfl, rfl⟩
theorem witness_OnlyPushesMoveTheStackPointer : exec .pushB State.reset = .next (State.reset.pushPair 0 0) ∧
    exec .nop State.reset = .next State.reset ∧ Instr.nop.pushes = false := ⟨rfl, rfl, rfl⟩
theorem witness_HLIsAViewOfHAndL : exec (.mviH 0x20) State.reset = .next { State.reset with H := 0x20 } ∧
    exec (.mviL 0x20) State.reset = .next { State.reset with L := 0x20 } ∧
    exec (.lxiH 0xABCD) State.reset = .next { State.reset with H := 0xAB, L := 0xCD } := ⟨rfl, rfl, rfl⟩
theorem witness_RegisterAccessIsAsListed : exec .rrc State.reset = .next State.reset ∧ Reg.B ∉ Instr.rrc.writtenRegs ∧
    Reg.B ∉ Instr.rrc.readRegs ∧ Reg.A ∉ (Instr.mviA 1).readRegs ∧ Reg.A ∈ (Instr.mviA 1).writtenRegs := ⟨rfl, by decide⟩
theorem witness_FlagAccessIsAsListed : exec .nop State.reset = .next State.reset ∧ Flag.CY ∉ Instr.dcrM.writtenFlags ∧
    Flag.CY ∉ Instr.dcrM.readFlags ∧ Flag.CY ∉ Instr.rrc.readFlags ∧ Flag.CY ∈ Instr.rrc.writtenFlags := ⟨rfl, by decide⟩
theorem witness_ParityKeepsItsLaunchValue : step State.reset = .next { State.reset with pc := 1 } := rfl
theorem witness_MemoryChangesOnlyWhereListed : exec .pushB State.reset = .next (State.reset.pushPair 0 0) ∧
    (0x0000 : Word) ∉ Instr.pushB.storedAddresses State.reset := ⟨rfl, by decide⟩
theorem witness_StepReadsOnlyItsOwnBytesAndM :
    ({ code 0 [0x35] with L := 7 } : State).holdsAt 0 (encode .dcrM) ∧
    ({ code 0 [0x35] with L := 7, mem := [(0, 0x35), (9, 0x01)] } : State).holdsAt 0 (encode .dcrM) ∧
    (∀ a ∈ Instr.dcrM.loadedAddresses { code 0 [0x35] with L := 7 },
      Memory.read [(0, 0x35), (9, 0x01)] a = ({ code 0 [0x35] with L := 7 } : State).readByte a) :=
  ⟨⟨rfl, trivial⟩, ⟨rfl, trivial⟩, by simp [Instr.loadedAddresses]; decide⟩
theorem witness_StepReadsOnlyItsOwnBytesAndM_next : step { code 0 [0x35] with L := 7 } =
    .next { State.reset with L := 7, pc := 1, S := true, mem := [(0, 0x35), (7, 0xFF)] } := rfl
theorem witness_StoreIsSeenByTheNextFetch :
    (let s : State := { code 0 [0x36, 0x76] with L := 2 }
     s.readByte s.pc = 0x36 ∧ s.HL = s.pc + 2 ∧ (∃ t, step s = .next t) ∧ lookup (s.readByte (s.pc + 1)) = none) ∧
    (let s : State := { code 0 [0x36, 0x00] with L := 2 }
     s.readByte s.pc = 0x36 ∧ s.HL = s.pc + 2 ∧ (∃ t, step s = .next t) ∧ s.readByte (s.pc + 1) = 0x00) :=
  ⟨⟨rfl, rfl, ⟨_, rfl⟩, rfl⟩, ⟨rfl, rfl, ⟨_, rfl⟩, rfl⟩⟩
theorem witness_MemoryAccessUnit : ((65535 : Int) - 0) % 65536 ≠ 0 ∧ (0 ≠ 1 ∧ 0 ≠ 2) ∧ (3 ≠ 1 ∧ 3 ≠ 2) := by decide
theorem witness_StepKeepsMemoryCanonical : ({ code 0 [0xC5] with B := 0x12 } : State).mem.wf = true ∧
    ∃ t, step { code 0 [0xC5] with B := 0x12 } = .next t := ⟨by decide, _, rfl⟩
theorem witness_SnapshotIsAReadOnlyCopy : 0 < Config.memorySize ∧ 65535 < Config.memorySize := by decide
theorem witness_SnapshotDeterminesTheState : (code 0 [0xC5]).mem.wf = true ∧ (code 0 [0xC5]).snapshot = (code 0 [0xC5]).snapshot :=
  ⟨by decide, rfl⟩
theorem witness_LaunchStatesAreTheCanonicalStates : (code 0 [0xC5]).mem.wf = true ∧
    launchState [.byte 0 0xC5, .pc 0] = code 0 [0xC5] := by decide
theorem witness_NoLoadAfterTheFirstStep : Session.construct.started = false ∧
    Session.construct.act .step = some (⟨{ State.reset with pc := 1 }, true⟩, .stepped (.ok 4)) ∧
    (⟨State.reset, true⟩ : Session).act .snapshot = some (⟨State.reset, true⟩, .state State.reset.snapshot) := ⟨rfl, rfl, rfl⟩
theorem witness_InstancesShareNothing : ∃ cs r, actOn [Session.construct, Session.construct] 1 .step = some (cs, r) ∧
    ([⟨code 0 [0xC5], true⟩, Session.construct] : List Session)[1]? = [Session.construct, Session.construct][1]? := ⟨_, _, rfl, rfl⟩
theorem witness_StopAddressIsAFixedPoint : (code 9 [0xC3, 0x09, 0x00]).atStop 9 = true := by decide
/-- The stop address 0xFFFE is one whose jump wraps past 0xFFFF. -/
theorem witness_RunEndsOnceAndForAll :
    (let s := code 0xFFFE [0xC3, 0xFE, 0xFF]
     s.pc = 0xFFFE ∧ s.readByte 0xFFFE = 0xC3 ∧ s.readByte (0xFFFE + 1) = loByte 0xFFFE ∧ s.readByte (0xFFFE + 2) = hiByte 0xFFFE) ∧
    lookup ((code 5 [0x76]).readByte (code 5 [0x76]).pc) = none ∧
    State.reset.atStop 9 = false ∧ (∃ d, lookup (State.reset.readByte State.reset.pc) = some d) ∧
    runTo 9 0 (code 9 [0xC3, 0x09, 0x00]) = .finished (code 9 [0xC3, 0x09, 0x00]) ∧
    runTo 9 1 (code 5 [0x76]) = .faulted (code 5 [0x76]) (.unknownOpcode 0x76 5) :=
  ⟨by decide, by rfl, by decide, ⟨_, rfl⟩, by decide, by decide⟩

end Sys2Proof.Tests
end

section
/-! SUPPORT. Proofs about the state and its instances (spec/10_state.md): the view HL (R23), Parity (R31), the state after
construction (R36) and independent instances (R38). -/

namespace Sys2Proof.Machine

/-! ### The view HL -/

@[simp] theorem State.HL_toNat (s : State) : s.HL.toNat = s.H.toNat * 256 + s.L.toNat := wordOf_toNat s.H s.L

theorem State.HL_setReg_H (s : State) (v : Byte) : (s.setReg .H v).HL = wordOf v s.L := rfl

theorem State.HL_setReg_L (s : State) (v : Byte) : (s.setReg .L v).HL = wordOf s.H v := rfl

@[simp] theorem State.HL_setHL (s : State) (v : Word) : (s.setHL v).HL = v := wordOf_hiByte_loByte v

/-- Settles O32: each of the three writing instructions answers `setReg` or `setHL`, and the view is read off it. -/
theorem hlIsAViewOfHAndL : Obligations.HLIsAViewOfHAndL := by
  refine ⟨State.HL_toNat, ?mviH, ?mviL, ?lxiH⟩
  case mviH =>
    intro s t d8 h
    obtain rfl : s.setReg .H d8 = t := Host.Outcome.next.inj h
    exact s.HL_setReg_H d8
  case mviL =>
    intro s t d8 h
    obtain rfl : s.setReg .L d8 = t := Host.Outcome.next.inj h
    exact s.HL_setReg_L d8
  case lxiH =>
    intro s t d16 h
    obtain rfl : s.setHL d16 = t := Host.Outcome.next.inj h
    exact ⟨s.HL_setHL d16, hiByte_toNat d16, loByte_toNat d16⟩

/-! ### Parity -/

/-- Fetching an operand reads `pc` and memory and nothing else. -/
theorem operandFetched_congr {s t : State} (hpc : s.pc = t.pc) (hmem : s.mem = t.mem) (b : Build) :
    operandFetched b s = operandFetched b t := by
  cases b <;> simp [operandFetched, State.immediate8, State.immediate16, State.readWord, State.readByte, hpc, hmem]

/-- No handler reads or writes Parity. The conditional jumps alone branch on a flag, and it is CY. -/
theorem exec_with_P (i : Instr) (s : State) (v : Bool) :
    exec i { s with P := v } = mapNext (fun t => { t with P := v }) (exec i s) := by
  cases i with
  | jc addr => simp only [exec, execJc_eq, mapNext]; rfl
  | jnc addr => simp only [exec, execJnc_eq, mapNext]; rfl
  | _ => rfl

/-- A step commutes with any change of Parity: fetch and operand do not see it, and the handler commutes with it. -/
theorem step_with_P (s : State) (v : Bool) :
    step { s with P := v } = mapNext (fun t => { t with P := v }) (step s) := by
  have hfetch : State.fetchOpcode { s with P := v } = s.fetchOpcode := rfl
  cases h : lookup s.fetchOpcode with
  | none =>
    rw [step, step, dispatchNext_of_lookup_none h, dispatchNext_of_lookup_none (hfetch ▸ h)]
    rfl
  | some d =>
    rw [step, step, dispatchNext_of_lookup_some h, dispatchNext_of_lookup_some (hfetch ▸ h), runHandler, runHandler,
      operandFetched_congr (t := s.advancePc d.length) rfl rfl]
    exact exec_with_P _ (s.advancePc d.length) v

/-- Setting Parity to what it is already leaves the state alone, so a step that commutes with the setting keeps Parity. -/
theorem step_keeps_P {s t : State} (h : step s = .next t) : t.P = s.P := by
  have hcomm : step s = mapNext (fun u => { u with P := s.P }) (step s) := step_with_P s s.P
  rw [h] at hcomm
  have ht : t = { t with P := s.P } := Host.Outcome.next.inj hcomm
  rw [ht]

/-- Settles O38: that a step keeps Parity follows from its commuting with every change of it. -/
theorem parityKeepsItsLaunchValue : Obligations.ParityKeepsItsLaunchValue :=
  ⟨fun _ _ => step_keeps_P, step_with_P, rfl, fun _ => rfl⟩

/-! ### The state after construction -/

/-- Settles O46, field by field. -/
theorem resetIsAllZero : Obligations.ResetIsAllZero := by
  refine ⟨fun r => ?regs, rfl, rfl, fun f => ?flags, Memory.read_nil⟩
  case regs => cases r <;> rfl
  case flags => cases f <;> rfl

/-! ### Independent instances -/

/-- An action on core `k` answers exactly if core `k` exists and answers on its own; it replaces that core alone. -/
theorem actOn_eq_some_iff {cores cores' : List Session} {k : Nat} {a : HostAction} {r : HostReply} :
    actOn cores k a = some (cores', r) ↔
      ∃ h h', cores[k]? = some h ∧ h.act a = some (h', r) ∧ cores.set k h' = cores' := by
  unfold actOn
  cases cores[k]? with
  | none => simp
  | some h =>
    cases hact : h.act a with
    | none => simp [hact]
    | some p => obtain ⟨h', q⟩ := p; simp [hact, and_comm]

/-- Settles O52: the action replaces core `k` by what core `k` alone determines. -/
theorem instancesShareNothing : Obligations.InstancesShareNothing := by
  intro cores cores' k a r hact
  obtain ⟨h, h', hk, hstep, rfl⟩ := actOn_eq_some_iff.mp hact
  refine ⟨fun j hj => List.getElem?_set_ne hj.symm, fun others hsame => ?_⟩
  have hk' : others[k]? = some h := hsame.trans hk
  refine ⟨others.set k h', actOn_eq_some_iff.mpr ⟨h, h', hk', hstep, rfl⟩, ?_⟩
  obtain ⟨hlt, -⟩ := List.getElem?_eq_some_iff.mp hk
  obtain ⟨hlt', -⟩ := List.getElem?_eq_some_iff.mp hk'
  rw [List.getElem?_set_self hlt, List.getElem?_set_self hlt']

end Sys2Proof.Machine
end

section
/-! SUPPORT. Proofs about the memory access unit (spec/20_memory.md): a byte written and read back (R44). -/

namespace Sys2Proof.Machine

/-- A read of width 1 answers the byte at the offset modulo 2^16 (20_memory.md R41). -/
theorem State.readBytes_one (s : State) (offset : Int) : s.readBytes 1 offset = .ok (s.readByte (u16 offset)).toNat := rfl

/-- The write and the read reduce the offset to the same address, so the read answers the byte the write put there. -/
theorem State.readBytes_one_writeBytes_same (s : State) (offset value : Int) :
    (s.writeBytes offset value).readBytes 1 offset = .ok (u8 value).toNat := by
  rw [State.readBytes_one, State.writeBytes, State.readByte_writeByte_same]

/-- Settles O42, as the case of an offset that is an address. -/
theorem writtenByteReadsBack : Obligations.WrittenByteReadsBack :=
  fun s a value => s.readBytes_one_writeBytes_same a.toNat value

end Sys2Proof.Machine
end

section
/-! SUPPORT. Proofs about the encoding (spec/30_encoding.md): the decoder on an encoding (R61), the length of an instruction
(R60) and the illegal bytes (R67). -/

namespace Sys2Proof

open Sys2Proof.Machine

/-! ### The decoder on an encoding -/

/-- On a byte of the table the decoder takes the operand bytes its row asks for. -/
theorem decode_of_lookup_some {op : Byte} {d : Descriptor} (h : lookup op = some d) (bytes : List Byte) :
    decode (op :: bytes) = d.build.complete op bytes := by
  simp only [decode, h]

/-- A three-byte row joins the two bytes of a word, low byte first, to that word again (30_encoding.md R64). -/
theorem Build.complete_f3_d16Bytes (mk : Word → Instr) (op : Byte) (v : Word) (rest : List Byte) :
    (Build.f3 mk).complete op (d16Bytes v ++ rest) = .ok (mk v, rest) := by
  simp [Build.complete, d16Bytes]

/-- An instruction's opcode selects a row that rebuilds it from its operand bytes. One- and two-byte rows take them as they
stand; a three-byte row joins a word from its halves. -/
theorem exists_row_completing_operandBytes (i : Instr) :
    ∃ d, lookup i.opcode = some d ∧
      ∀ rest, d.build.complete i.opcode (i.operandBytes ++ rest) = .ok (i, rest) := by
  cases i with
  | lxiH v | sta v | jmp v | call v | jnc v | jc v => exact ⟨_, rfl, Build.complete_f3_d16Bytes _ _ v⟩
  | _ => exact ⟨_, rfl, fun _ => rfl⟩

/-- Settles O1: the opcode selects the instruction's own row, which rebuilds it from the operand bytes. -/
theorem decodeInvertsEncode : Obligations.DecodeInvertsEncode := by
  intro i rest
  obtain ⟨d, hrow, hcomplete⟩ := exists_row_completing_operandBytes i
  exact (decode_of_lookup_some hrow _).trans (hcomplete rest)

/-! ### The length of an instruction -/

/-- The row of the table and the encoding agree with the length of every instruction (40_dispatch.md R92). -/
theorem Laws.TableRow.statement_of_instr (i : Instr) : Laws.TableRow.Statement i := by
  cases i <;> exact ⟨rfl, rfl⟩

@[simp] theorem length_encode (i : Instr) : (encode i).length = i.length := (Laws.TableRow.statement_of_instr i).2

theorem lookup_opcode_length (i : Instr) : (lookup i.opcode).map (·.length) = some i.length :=
  (Laws.TableRow.statement_of_instr i).1

theorem Instr.length_pos (i : Instr) : 1 ≤ i.length := by
  cases h : i.format <;> simp [Instr.length, Format.length, h]

theorem Instr.length_le (i : Instr) : i.length ≤ 3 := by
  cases h : i.format <;> simp [Instr.length, Format.length, h]

/-- The table is looked up by the opcode byte alone, and its row gives the length. -/
theorem Instr.length_eq_of_opcode_eq {i j : Instr} (h : i.opcode = j.opcode) : i.length = j.length := by
  have hrow : some i.length = some j.length := by rw [← lookup_opcode_length, h, lookup_opcode_length]
  exact Option.some.inj hrow

/-- Settles O4: an encoding is as long as its instruction, whose length its row of the table gives. -/
theorem lengthIsFixedByTheOpcode : Obligations.LengthIsFixedByTheOpcode := by
  unfold Obligations.LengthIsFixedByTheOpcode
  simp only [length_encode]
  exact ⟨fun i => ⟨i.length_pos, i.length_le, rfl⟩, fun _ _ => Instr.length_eq_of_opcode_eq⟩

/-! ### The illegal bytes -/

/-- The table's opcodes and the listed ranges divide the 256 bytes between them. -/
theorem lookup_eq_none_iff_illegalValue : ∀ b : Byte, lookup b = none ↔ illegalValue b.toNat = true := by
  decide

/-- No opcode of the table lies from 0x40 to 0xBF. -/
theorem illegalValue_of_middle {n : Nat} (hlow : 0x40 ≤ n) (hhigh : n ≤ 0xBF) : illegalValue n = true :=
  List.any_eq_true.mpr ⟨(0x40, 0xBF), by decide, by simp [hlow, hhigh]⟩

/-- 13 opcodes lie below 0x40, none from there to 0xBF, and 7 above: 64 - 13 + 128 + 64 - 7 illegal values. -/
theorem countP_illegalValue : (List.range 256).countP illegalValue = 236 := by
  have hblocks : List.range 256 = List.range' 0 64 ++ List.range' 0x40 128 ++ List.range' 0xC0 64 := by
    rw [List.range_eq_range', List.range'_append_1, List.range'_append_1]
  have hlow : (List.range' 0 64).countP illegalValue = 51 := by decide
  have hmiddle : (List.range' 0x40 128).countP illegalValue = 128 := by
    refine List.countP_eq_length.mpr fun n hn => ?_
    obtain ⟨hfirst, hlast⟩ := List.mem_range'_1.mp hn
    exact illegalValue_of_middle hfirst (by omega)
  have hhigh : (List.range' 0xC0 64).countP illegalValue = 57 := by decide
  rw [hblocks, List.countP_append, List.countP_append, hlow, hmiddle, hhigh]

/-- Settles O5: a byte in the ranges has no row, so the dispatcher raises the exception at it. -/
theorem illegalBytesRaiseUnknownOpcode : Obligations.IllegalBytesRaiseUnknownOpcode := by
  refine ⟨lookup_eq_none_iff_illegalValue, countP_illegalValue, fun s h => ?_⟩
  have hrow : lookup s.fetchOpcode = none := (lookup_eq_none_iff_illegalValue _).mpr h
  exact dispatchNext_of_lookup_none hrow

end Sys2Proof
end

section
/-! SUPPORT. Proofs about the dispatcher (spec/40_dispatch.md): the two outcomes of a step (R80, R86) and its cycle cost
(R85, R91). -/

namespace Sys2Proof.Machine

/-! ### The two outcomes -/

/-- Every handler completes: no instruction faults or is refused once dispatched (60_exceptions.md R201). -/
theorem exec_answers_next (i : Instr) (s : State) : ∃ t, exec i s = .next t := by
  cases i <;> exact ⟨_, rfl⟩

/-- On a byte of the table the step completes, and the reply is its next state at the row's cost. -/
theorem executeNext_ok_of_lookup_some {s : State} {d : Descriptor} (h : lookup s.fetchOpcode = some d) :
    ∃ t, executeNext s = (t, .ok d.cycles) ∧ step s = .next t := by
  obtain ⟨t, hexec⟩ : ∃ t, runHandler d s = .next t := exec_answers_next _ _
  refine ⟨t, ?reply, ?step⟩
  case reply => rw [executeNext_of_lookup_some s h, hexec, replyTo]
  case step => rw [step, dispatchNext_of_lookup_some h, hexec]

/-- Settles O10: the dispatcher raises the exception in place of a handler, and the reply keeps the state. -/
theorem unknownOpcodeWritesNoState : Obligations.UnknownOpcodeWritesNoState :=
  fun s h => ⟨dispatchNext_of_lookup_none h, executeNext_of_lookup_none s h⟩

/-- Settles O12: which outcome it is depends on whether the table has a row for the opcode byte. -/
theorem executeNextHasTwoOutcomes : Obligations.ExecuteNextHasTwoOutcomes := by
  intro s
  cases hrow : lookup s.fetchOpcode with
  | none =>
    obtain ⟨hstep, hreply⟩ := unknownOpcodeWritesNoState s hrow
    exact .inr ⟨hrow, hreply, hstep⟩
  | some d =>
    obtain ⟨t, hreply, hstep⟩ := executeNext_ok_of_lookup_some hrow
    exact .inl ⟨t, d.cycles, hreply, hstep⟩

/-! ### The cycle cost -/

/-- The published list is the cost column of the dispatch table, row by row. -/
theorem publishedCosts_eq_map : publishedCosts = dispatchTable.map fun row => (row.1, row.2.cycles) := rfl

/-- Every published cost is the one the lookup finds: no row hides behind an earlier row with its opcode. -/
theorem lookup_cycles_of_mem_publishedCosts :
    ∀ c ∈ publishedCosts, (lookup c.1).map (·.cycles) = some c.2 := by
  decide

/-- The published costs are the costs of the rows the lookup finds, and no others. -/
theorem mem_publishedCosts_iff {op : Byte} {n : Nat} :
    (op, n) ∈ publishedCosts ↔ ∃ d, lookup op = some d ∧ d.cycles = n := by
  refine ⟨fun h => Option.map_eq_some_iff.mp (lookup_cycles_of_mem_publishedCosts _ h), ?_⟩
  rintro ⟨d, hrow, rfl⟩
  exact publishedCosts_eq_map ▸ List.mem_map.mpr ⟨(op, d), mem_dispatchTable_of_lookup hrow, rfl⟩

/-- Settles O13: the reply carries the cost of the row the opcode byte selects, whatever else the state holds. -/
theorem cycleCostIsFixedPerOpcode : Obligations.CycleCostIsFixedPerOpcode := by
  refine ⟨?listed, ?only⟩
  case listed =>
    rintro s op n hcost rfl
    obtain ⟨d, hrow, rfl⟩ := mem_publishedCosts_iff.mp hcost
    obtain ⟨t, hreply, -⟩ := executeNext_ok_of_lookup_some hrow
    exact ⟨t, hreply⟩
  case only =>
    intro s t n hreply
    cases hrow : lookup s.fetchOpcode with
    | none =>
      rw [executeNext_of_lookup_none s hrow] at hreply
      cases hreply
    | some d =>
      obtain ⟨u, hreply', -⟩ := executeNext_ok_of_lookup_some hrow
      rw [hreply'] at hreply
      cases hreply
      exact mem_publishedCosts_iff.mpr ⟨d, hrow, rfl⟩

end Sys2Proof.Machine
end

section
/-! SUPPORT. Proofs about the control instructions (spec/41_control.md): NOP (R100), JMP (R101), CALL (R102), JC (R103) and
JNC (R104). -/

namespace Sys2Proof.Machine

/-! ### The reply by the form of the row -/

/-- On a one-byte row the reply is that of its instruction, run with `pc` one further (30_encoding.md R61, 40_dispatch.md R82). -/
theorem executeNext_of_row_f1 {s : State} {name : String} {cycles : Nat} {i : Instr}
    (hrow : lookup s.fetchOpcode = some ⟨name, 1, cycles, .f1 i⟩) :
    executeNext s = replyTo s cycles (exec i (s.advancePc 1)) := by
  rw [executeNext_of_lookup_some s hrow, runHandler, operandFetched_f1]

/-- On a three-byte row the reply is that of its instruction on the operand word, run with `pc` three further. -/
theorem executeNext_of_row_f3 {s : State} {name : String} {cycles : Nat} {mk : Word → Instr}
    (hrow : lookup s.fetchOpcode = some ⟨name, 3, cycles, .f3 mk⟩) :
    executeNext s = replyTo s cycles (exec (mk (s.operandWord s.pc)) (s.advancePc 3)) := by
  rw [executeNext_of_lookup_some s hrow, runHandler, operandFetched_f3, State.operandWord]

/-! ### The meanings -/

theorem exec_nop (s : State) : exec .nop s = .next s := rfl

theorem exec_jmp (addr : Word) (s : State) : exec (.jmp addr) s = .next (s.jumpTo addr) := rfl

theorem exec_jc (addr : Word) (s : State) :
    exec (.jc addr) s = .next (s.jumpTo (if s.CY then addr else s.pc)) := execJc_eq s addr

theorem exec_jnc (addr : Word) (s : State) :
    exec (.jnc addr) s = .next (s.jumpTo (if s.CY then s.pc else addr)) := execJnc_eq s addr

/-- The push does not touch `pc` and the jump touches nothing else, so the jump may come first once the return address is read. -/
theorem exec_call (addr : Word) (s : State) :
    exec (.call addr) s = .next ((s.jumpTo addr).pushPair (hiByte s.pc) (loByte s.pc)) := rfl

@[simp] theorem State.jumpTo_own_pc (s : State) : s.jumpTo s.pc = s := rfl

@[simp] theorem State.jumpTo_advancePc (s : State) (n : Nat) (addr : Word) : (s.advancePc n).jumpTo addr = s.jumpTo addr := rfl

/-- The push primitive changes what R130 lists and nothing else. -/
theorem State.pushedInto_pushPair (s : State) (hi lo : Byte) : State.pushedInto s (s.pushPair hi lo) hi lo := by
  refine ⟨?high, ?low, fun b hhigh hlow => ?frame, rfl⟩
  case high => rw [State.pushPair_read, if_neg (pushed_addresses_differ s.sp), if_pos rfl]
  case low => rw [State.pushPair_read, if_pos rfl]
  case frame => rw [State.pushPair_read, if_neg hlow, if_neg hhigh]

/-! ### The instructions -/

/-- Settles O19: CALL is a push in the state already at the target, and the dispatcher has read the target by then. -/
theorem callPushesTheReturnAddress : Obligations.CallPushesTheReturnAddress := by
  refine ⟨fun s addr => ⟨_, exec_call addr s, State.pushedInto_pushPair _ _ _⟩, fun s hop => ?step⟩
  have hrow : lookup s.fetchOpcode = some ⟨"CALL addr", 3, 17, .f3 .call⟩ := congrArg lookup hop
  rw [executeNext_of_row_f3 hrow, exec_call, State.jumpTo_advancePc]
  exact ⟨_, rfl, State.pushedInto_pushPair _ _ _⟩

/-- Settles O17: the handler answers the advanced state as it stands. -/
theorem nopOnlyAdvances : Obligations.NopOnlyAdvances := by
  refine ⟨exec_nop, fun s hop => ?step⟩
  have hrow : lookup s.fetchOpcode = some ⟨"NOP", 1, 4, .f1 .nop⟩ := congrArg lookup hop
  rw [executeNext_of_row_f1 hrow, exec_nop]
  rfl

/-- Settles O18: the jump overwrites the advanced `pc`. -/
theorem jmpGoesToItsAddress : Obligations.JmpGoesToItsAddress := by
  refine ⟨fun s addr => exec_jmp addr s, fun s hop => ?step⟩
  have hrow : lookup s.fetchOpcode = some ⟨"JMP addr", 3, 10, .f3 .jmp⟩ := congrArg lookup hop
  rw [executeNext_of_row_f3 hrow, exec_jmp, State.jumpTo_advancePc]
  rfl

/-- Settles O20: JC is a jump to its address or to the advanced `pc`, as CY says, at the one cost of its row. -/
theorem jcJumpsOnCarry : Obligations.JcJumpsOnCarry := by
  refine ⟨fun s addr hcy => ?taken, fun s addr hcy => ?fallsThrough, fun s hop => ?step⟩
  case taken => simp only [exec_jc, hcy, if_true, State.jumpTo]
  case fallsThrough => simp only [exec_jc, hcy, Bool.false_eq_true, if_false, State.jumpTo_own_pc]
  case step =>
    have hrow : lookup s.fetchOpcode = some ⟨"JC addr", 3, 10, .f3 .jc⟩ := congrArg lookup hop
    rw [executeNext_of_row_f3 hrow, exec_jc, State.jumpTo_advancePc]
    rfl

/-- Settles O21: JNC is a jump to the advanced `pc` or to its address, as CY says, at the one cost of its row. -/
theorem jncJumpsOnNoCarry : Obligations.JncJumpsOnNoCarry := by
  refine ⟨fun s addr hcy => ?taken, fun s addr hcy => ?fallsThrough, fun s hop => ?step⟩
  case taken => simp only [exec_jnc, hcy, Bool.false_eq_true, if_false, State.jumpTo]
  case fallsThrough => simp only [exec_jnc, hcy, if_true, State.jumpTo_own_pc]
  case step =>
    have hrow : lookup s.fetchOpcode = some ⟨"JNC addr", 3, 10, .f3 .jnc⟩ := congrArg lookup hop
    rw [executeNext_of_row_f3 hrow, exec_jnc, State.jumpTo_advancePc]
    rfl

end Sys2Proof.Machine
end

section
/-! SUPPORT. Proofs about the stack (spec/42_stack.md): the push primitive (R130), PUSH B, PUSH D and PUSH H (R131 to R133). -/

namespace Sys2Proof.Machine

/-! ### The push primitive -/

/-- A pushed pair reads back as one little-endian word at the new `sp`: the high byte is the one above it (20_memory.md R45). -/
theorem State.readWord_sp_of_pushedInto {s t : State} {hi lo : Byte} (h : State.pushedInto s t hi lo) :
    t.readWord t.sp = wordOf hi lo := by
  obtain ⟨hhigh, hlow, -, hfields⟩ := h
  have hsp : t.sp = s.sp - 2 := congrArg State.sp hfields
  have habove : s.sp - 2 + 1 = s.sp - 1 := by bv_omega
  rw [State.readWord, hsp, habove, hhigh, hlow]

/-- Settles O23: the word read back is a consequence of where the two bytes and `sp` stand. -/
theorem pushPairPlacesBothBytes : Obligations.PushPairPlacesBothBytes := fun s hi lo =>
  have hpushed := s.pushedInto_pushPair hi lo
  ⟨hpushed, State.readWord_sp_of_pushedInto hpushed⟩

/-! ### The push instructions -/

theorem exec_pushB (s : State) : exec .pushB s = .next (s.pushPair s.B s.C) := rfl

theorem exec_pushD (s : State) : exec .pushD s = .next (s.pushPair s.D s.E) := rfl

theorem exec_pushH (s : State) : exec .pushH s = .next (s.pushPair s.H s.L) := rfl

/-- On a one-byte row whose instruction pushes a pair, the reply is the push with `pc` one further, at the row's cost. -/
theorem executeNext_of_row_pushing {s : State} {name : String} {cycles : Nat} {i : Instr} {hi lo : Byte}
    (hrow : lookup s.fetchOpcode = some ⟨name, 1, cycles, .f1 i⟩)
    (hexec : exec i (s.advancePc 1) = .next ((s.advancePc 1).pushPair hi lo)) :
    ∃ t, executeNext s = (t, .ok cycles) ∧ State.pushedInto { s with pc := s.pc + 1 } t hi lo := by
  rw [executeNext_of_row_f1 hrow, hexec]
  exact ⟨_, rfl, State.pushedInto_pushPair _ _ _⟩

/-- Settles O24: each handler is the push of its pair, and the advance of `pc` leaves the pair alone. -/
theorem pushInstructionsPushTheirPair : Obligations.PushInstructionsPushTheirPair := by
  refine ⟨fun s => ⟨_, exec_pushB s, s.pushedInto_pushPair _ _⟩, fun s => ⟨_, exec_pushD s, s.pushedInto_pushPair _ _⟩,
    fun s => ⟨_, exec_pushH s, s.pushedInto_pushPair _ _⟩, fun s hop => ?stepB, fun s hop => ?stepD, fun s hop => ?stepH⟩
  case stepB =>
    have hrow : lookup s.fetchOpcode = some ⟨"PUSH B", 1, 11, .f1 .pushB⟩ := congrArg lookup hop
    exact executeNext_of_row_pushing hrow (exec_pushB _)
  case stepD =>
    have hrow : lookup s.fetchOpcode = some ⟨"PUSH D", 1, 11, .f1 .pushD⟩ := congrArg lookup hop
    exact executeNext_of_row_pushing hrow (exec_pushD _)
  case stepH =>
    have hrow : lookup s.fetchOpcode = some ⟨"PUSH H", 1, 11, .f1 .pushH⟩ := congrArg lookup hop
    exact executeNext_of_row_pushing hrow (exec_pushH _)

end Sys2Proof.Machine
end

section
/-! SUPPORT. Proofs about the data-transfer instructions (spec/43_data_transfer.md): MVI M (R158), STA (R159) and LXI H (R160). -/

namespace Sys2Proof.Machine

/-! ### The reply on a two-byte row -/

/-- On a two-byte row the reply is that of its instruction on the byte after the opcode, run with `pc` two further. -/
theorem executeNext_of_row_f2 {s : State} {name : String} {cycles : Nat} {mk : Byte → Instr}
    (hrow : lookup s.fetchOpcode = some ⟨name, 2, cycles, .f2 mk⟩) :
    executeNext s = replyTo s cycles (exec (mk (s.readByte (s.pc + 1))) (s.advancePc 2)) := by
  rw [executeNext_of_lookup_some s hrow, runHandler, operandFetched_f2]

/-! ### The meanings -/

theorem exec_mviM (d8 : Byte) (s : State) : exec (.mviM d8) s = .next (s.writeByte s.HL d8) := rfl

theorem exec_sta (addr : Word) (s : State) : exec (.sta addr) s = .next (s.writeByte addr s.A) := rfl

theorem exec_lxiH (d16 : Word) (s : State) : exec (.lxiH d16) s = .next { s with H := hiByte d16, L := loByte d16 } :=
  execLxiH_eq s d16

@[simp] theorem State.hiByte_operandWord (s : State) (a : Word) : hiByte (s.operandWord a) = s.readByte (a + 2) :=
  hiByte_wordOf _ _

@[simp] theorem State.loByte_operandWord (s : State) (a : Word) : loByte (s.operandWord a) = s.readByte (a + 1) :=
  loByte_wordOf _ _

/-- A one-byte write stores its byte and changes nothing else (20_memory.md R42). -/
theorem State.storedInto_writeByte (s : State) (a : Word) (v : Byte) : State.storedInto s (s.writeByte a v) a v :=
  ⟨s.readByte_writeByte_same a v, fun _ hother => s.readByte_writeByte_other hother v, rfl⟩

/-! ### The instructions -/

/-- Settles O29: MVI M is one byte write, and the advance of `pc` leaves HL and the immediate alone. -/
theorem mviMStoresAtHL : Obligations.MviMStoresAtHL := by
  refine ⟨fun s d8 => ⟨_, exec_mviM d8 s, s.storedInto_writeByte _ _⟩, fun s hop => ?step⟩
  have hrow : lookup s.fetchOpcode = some ⟨"MVI M,D8", 2, 10, .f2 .mviM⟩ := congrArg lookup hop
  rw [executeNext_of_row_f2 hrow, exec_mviM]
  exact ⟨_, rfl, State.storedInto_writeByte _ _ _⟩

/-- Settles O30: STA is one byte write, and the advance of `pc` leaves the accumulator and the address operand alone. -/
theorem staStoresTheAccumulator : Obligations.StaStoresTheAccumulator := by
  refine ⟨fun s addr => ⟨_, exec_sta addr s, s.storedInto_writeByte _ _⟩, fun s hop => ?step⟩
  have hrow : lookup s.fetchOpcode = some ⟨"STA addr", 3, 13, .f3 .sta⟩ := congrArg lookup hop
  rw [executeNext_of_row_f3 hrow, exec_sta]
  exact ⟨_, rfl, State.storedInto_writeByte _ _ _⟩

/-- Settles O31: the two bytes of the operand word are the bytes after the opcode, the high one last. -/
theorem lxiHLoadsThePair : Obligations.LxiHLoadsThePair := by
  refine ⟨fun s d16 => exec_lxiH d16 s, fun s hop => ?step⟩
  have hrow : lookup s.fetchOpcode = some ⟨"LXI H,D16", 3, 10, .f3 .lxiH⟩ := congrArg lookup hop
  rw [executeNext_of_row_f3 hrow, exec_lxiH, State.hiByte_operandWord, State.loByte_operandWord]
  rfl

end Sys2Proof.Machine
end

section
/-! SUPPORT. Proofs about the arithmetic and logic instructions (spec/44_arith_logic.md): RRC (R182). -/

namespace Sys2Proof.Machine

/-! ### The library's rotation of a byte -/

/-- A rotation by `n` moves the bits along a ring of 8 places. -/
theorem getLsbD_rotateRight_mod (x : Byte) (n : Nat) {k : Nat} (hk : k < 8) :
    (x.rotateRight n).getLsbD k = x.getLsbD ((n + k) % 8) := by
  rw [BitVec.getLsbD_rotateRight]
  by_cases hstays : k < 8 - n % 8
  · have hplace : n % 8 + k = (n + k) % 8 := by omega
    simp only [hstays, decide_true, cond_true, hplace]
  · have hplace : k - (8 - n % 8) = (n + k) % 8 := by omega
    simp only [hstays, decide_false, cond_false, hk, decide_true, Bool.true_and, hplace]

/-- Two rotations add up, as two moves along the ring do. -/
theorem rotateRight_rotateRight (x : Byte) (m n : Nat) : (x.rotateRight m).rotateRight n = x.rotateRight (m + n) := by
  refine BitVec.eq_of_getLsbD_eq fun k hk => ?_
  rw [getLsbD_rotateRight_mod _ _ hk, getLsbD_rotateRight_mod _ _ (Nat.mod_lt _ (by decide)), getLsbD_rotateRight_mod _ _ hk,
    Nat.add_mod_mod, Nat.add_assoc]

/-- Eight places are the whole ring. -/
theorem rotateRight_eight (x : Byte) : x.rotateRight 8 = x := by
  refine BitVec.eq_of_getLsbD_eq fun k hk => ?_
  rw [getLsbD_rotateRight_mod _ _ hk, Nat.add_mod_left, Nat.mod_eq_of_lt hk]

/-! ### RRC -/

/-- R182's formula is the library's rotation by one: bit 7 is the masked bit 0, and every other bit the one above it. -/
theorem rotateRight_eq (old : Byte) : rotateRight old = old.rotateRight 1 := by
  refine BitVec.eq_of_getLsbD_eq fun k hk => ?_
  rw [getLsbD_rotateRight_mod _ _ hk]
  obtain rfl | hlow : k = 7 ∨ k < 7 := by omega
  · simp [rotateRight]
  · have habove : (1 + k) % 8 = 1 + k := by omega
    simp [rotateRight, hlow, habove]

theorem exec_rrc (s : State) : exec .rrc s = .next { s with A := s.A.rotateRight 1, CY := s.A.getLsbD 0 } := by
  rw [← rotateRight_eq]
  exact execRrc_eq s

/-- After `n + 1` RRCs A is rotated by as many places, and CY is the bit the last of them rotated out: bit `n` on the ring. -/
theorem execTimes_rrc_succ (n : Nat) (s : State) :
    execTimes .rrc (n + 1) s = .next { s with A := s.A.rotateRight (n + 1), CY := s.A.getLsbD (n % 8) } := by
  induction n generalizing s with
  | zero => rw [execTimes, exec_rrc]; rfl
  | succ n ih =>
    have hlast : (s.A.rotateRight 1).getLsbD (n % 8) = s.A.getLsbD ((n + 1) % 8) := by
      rw [getLsbD_rotateRight_mod _ _ (Nat.mod_lt _ (by decide)), Nat.add_mod_mod, Nat.add_comm]
    rw [execTimes, exec_rrc]
    simp only [ih, rotateRight_rotateRight, hlast, Nat.add_comm 1]

/-- Settles O35: the handler's shifts are a rotation, and the eighth in a row completes the ring, rotating out bit 7. -/
theorem rrcRotatesTheAccumulator : Obligations.RrcRotatesTheAccumulator := by
  refine ⟨exec_rrc, fun s hop => ?step, fun s => ?eight⟩
  case step =>
    have hrow : lookup s.fetchOpcode = some ⟨"RRC", 1, 4, .f1 .rrc⟩ := congrArg lookup hop
    rw [executeNext_of_row_f1 hrow, exec_rrc]
    rfl
  case eight => rw [execTimes_rrc_succ 7 s, rotateRight_eight]

end Sys2Proof.Machine
end

section
/-! SUPPORT. Proofs about the exceptions (spec/60_exceptions.md): what a step that raises says of its opcode byte (R201). -/

namespace Sys2Proof.Machine

/-- A step that faults found no row for its opcode byte, and the record names that byte and its address. -/
theorem lookup_eq_none_of_step_fault {s : State} {f : Fault} (h : step s = .fault f) :
    lookup (s.readByte s.pc) = none ∧ f = .unknownOpcode (s.readByte s.pc) s.pc := by
  obtain ⟨t, n, -, hnext⟩ | ⟨hrow, -, hfault⟩ := executeNextHasTwoOutcomes s
  · cases hnext.symm.trans h
  · cases hfault.symm.trans h
    exact ⟨hrow, rfl⟩

theorem step_ne_refused (s : State) (r : Refusal) : step s ≠ .refused r := by
  intro h
  obtain ⟨t, n, -, hnext⟩ | ⟨-, -, hfault⟩ := executeNextHasTwoOutcomes s
  · cases hnext.symm.trans h
  · cases hfault.symm.trans h

/-- Settles O11: every handler completes, so of a step's two outcomes the fault is the dispatcher's alone. -/
theorem onlyTheDispatcherRaises : Obligations.OnlyTheDispatcherRaises := by
  refine ⟨exec_answers_next, fun _ _ => lookup_eq_none_of_step_fault, step_ne_refused, ?table⟩
  case table =>
    rintro s ⟨d, hrow⟩
    obtain ⟨t, -, hstep⟩ := executeNext_ok_of_lookup_some hrow
    exact ⟨t, hstep⟩

end Sys2Proof.Machine
end

section
/-! SUPPORT. Proofs about the encoding (spec/30_encoding.md): bytes that decode are an encoding (R61 to R67), a row's length and
its operand bytes (40_dispatch.md R92), and words written out bit by bit. -/

namespace Sys2Proof

open Sys2Proof.Machine

/-! ### The rows of the table against the encoder -/

/-- A row under opcode `op` builds instructions that the encoder writes as `op` and the row's operand bytes, as many bytes in all
as the row's length says. -/
def Descriptor.Encodes (op : Byte) (d : Descriptor) : Prop :=
  match d.build with
  | .f1 i => d.length = 1 ∧ encode i = [op]
  | .f2 make => d.length = 2 ∧ ∀ d8, encode (make d8) = [op, d8]
  | .f3 make => d.length = 3 ∧ ∀ v, encode (make v) = op :: d16Bytes v

theorem Descriptor.encodes_of_mem_dispatchTable : ∀ row ∈ dispatchTable, row.2.Encodes row.1 := by
  simp only [dispatchTable, List.forall_mem_cons]
  simp [Descriptor.Encodes, encode, Instr.opcode, Instr.operandBytes]

theorem Descriptor.encodes_of_lookup {op : Byte} {d : Descriptor} (h : lookup op = some d) : d.Encodes op :=
  encodes_of_mem_dispatchTable _ (mem_dispatchTable_of_lookup h)

/-! ### The decoder, read backwards -/

/-- The decoder answers by the row of the first byte. -/
theorem decode_eq_ok {bytes rest : List Byte} {i : Instr} (h : decode bytes = .ok (i, rest)) :
    ∃ op tail d, bytes = op :: tail ∧ lookup op = some d ∧ d.build.complete op tail = .ok (i, rest) := by
  cases bytes with
  | nil => cases h
  | cons op tail =>
    cases hrow : lookup op with
    | none => simp [decode, hrow] at h
    | some d => exact ⟨op, tail, d, rfl, hrow, (decode_of_lookup_some hrow tail).symm.trans h⟩

/-- What a row completes from the bytes after the opcode is encoded as the opcode and the bytes it took. -/
theorem Descriptor.Encodes.bytes_eq {op : Byte} {d : Descriptor} (hd : d.Encodes op) {tail rest : List Byte} {i : Instr}
    (h : d.build.complete op tail = .ok (i, rest)) : op :: tail = encode i ++ rest := by
  unfold Descriptor.Encodes at hd
  match hb : d.build, tail with
  | .f1 j, tail =>
    rw [hb] at hd h
    obtain ⟨-, henc⟩ := hd
    cases h
    rw [henc]; rfl
  | .f2 make, d8 :: tail =>
    rw [hb] at hd h
    obtain ⟨-, henc⟩ := hd
    cases h
    rw [henc]; rfl
  | .f3 make, lo :: hi :: tail =>
    rw [hb] at hd h
    obtain ⟨-, henc⟩ := hd
    cases h
    simp [henc, d16Bytes]
  | .f2 make, [] | .f3 make, [] | .f3 make, [_] => rw [hb] at h; cases h

/-- Settles O2: the row the first byte selects takes the bytes that the encoder writes for what the row builds. -/
theorem decodedBytesAreTheEncoding : Obligations.DecodedBytesAreTheEncoding := by
  intro bytes rest i h
  obtain ⟨op, tail, d, rfl, hrow, hcomplete⟩ := decode_eq_ok h
  exact (Descriptor.encodes_of_lookup hrow).bytes_eq hcomplete

/-- Settles O6: each row agrees with the encoder on its length, and decoding takes an encoding off the bytes. -/
theorem lengthCountsTheOperandBytes : Obligations.LengthCountsTheOperandBytes := by
  refine ⟨fun op d hrow => ?rows, fun bytes rest i h => ?taken⟩
  case rows =>
    have hd : d.Encodes op := Descriptor.encodes_of_lookup hrow
    unfold Descriptor.Encodes at hd
    refine ⟨fun i hb => ?f1, fun make hb => ?f2, fun make hb => ?f3⟩ <;> rw [hb] at hd <;> exact hd.1
  case taken => rw [decodedBytesAreTheEncoding bytes rest i h, List.length_append, length_encode]

/-- Settles O3, each word by running the decoder on it. -/
theorem sampleWordsDecode : Obligations.SampleWordsDecode := ⟨rfl, rfl, rfl, rfl, rfl, rfl, rfl⟩

end Sys2Proof
end

section
/-! SUPPORT. Proofs about the step (spec/40_dispatch.md): it runs the instruction that memory holds at `pc` (R81, R82), where it
leaves `pc` (R89), and that a failed step repeats (60_exceptions.md R205). -/

namespace Sys2Proof.Machine

/-! ### The decoded instruction -/

/-- The operand form of a row, read by the dispatcher after the advance, is what the decoder completes from the two bytes after
the opcode, and the row's length is the instruction's. -/
theorem operandFetched_of_complete {s : State} {op : Byte} {d : Descriptor} {i : Instr} {rest : List Byte} (hd : d.Encodes op)
    (h : d.build.complete op [s.readByte (s.pc + 1), s.readByte (s.pc + 2)] = .ok (i, rest)) :
    operandFetched d.build (s.advancePc d.length) = i ∧ d.length = i.length := by
  unfold Descriptor.Encodes at hd
  match hb : d.build with
  | .f1 j =>
    rw [hb] at hd h
    obtain ⟨hlen, henc⟩ := hd
    cases h
    rw [← length_encode, hlen, henc]
    exact ⟨rfl, rfl⟩
  | .f2 make =>
    rw [hb] at hd h
    obtain ⟨hlen, henc⟩ := hd
    cases h
    rw [← length_encode, hlen, henc]
    exact ⟨operandFetched_f2 s make, rfl⟩
  | .f3 make =>
    rw [hb] at hd h
    obtain ⟨hlen, henc⟩ := hd
    cases h
    rw [← length_encode, hlen, henc]
    exact ⟨operandFetched_f3 s make, rfl⟩

/-- Settles O7: decoder and dispatcher take the same row, and the dispatcher fetches the operand the decoder reads. -/
theorem stepRunsTheDecodedInstruction : Obligations.StepRunsTheDecodedInstruction := by
  intro s i rest h
  obtain ⟨op, tail, d, hbytes, hrow, hcomplete⟩ := decode_eq_ok h
  obtain ⟨rfl, rfl⟩ : s.readByte s.pc = op ∧ [s.readByte (s.pc + 1), s.readByte (s.pc + 2)] = tail := List.cons.inj hbytes
  obtain ⟨hoperand, hlen⟩ := operandFetched_of_complete (Descriptor.encodes_of_lookup hrow) hcomplete
  rw [step, dispatchNext_of_lookup_some hrow, runHandler, hoperand, hlen]
  rfl

/-! ### The encoding in memory -/

theorem add_one_add_one (a : Word) : a + 1 + 1 = a + 2 := by
  bv_omega

/-- At most three bytes held in memory begin the three bytes that the decoder is given. -/
theorem State.bytesAt_eq_append_of_holdsAt {s : State} {a : Word} {bytes : List Byte} (hlen : bytes.length ≤ 3)
    (h : s.holdsAt a bytes) : ∃ rest, s.bytesAt a = bytes ++ rest := by
  match bytes, h with
  | [], _ => exact ⟨_, rfl⟩
  | [_], ⟨rfl, _⟩ => exact ⟨_, rfl⟩
  | [_, _], ⟨rfl, rfl, _⟩ => exact ⟨_, rfl⟩
  | [_, _, _], ⟨rfl, rfl, rfl, _⟩ => exact ⟨[], by simp only [State.bytesAt, add_one_add_one, List.append_nil]⟩
  | _ :: _ :: _ :: _ :: _, _ => simp only [List.length_cons] at hlen; omega

theorem State.decode_bytesAt_of_holdsAt {s : State} {a : Word} {i : Instr} (h : s.holdsAt a (encode i)) :
    ∃ rest, decode (s.bytesAt a) = .ok (i, rest) := by
  obtain ⟨rest, hbytes⟩ := State.bytesAt_eq_append_of_holdsAt (length_encode i ▸ i.length_le) h
  exact ⟨rest, hbytes ▸ decodeInvertsEncode i rest⟩

/-- Settles O8: the bytes held decode to the instruction, whatever follows them. -/
theorem stepRunsTheEncodedInstruction : Obligations.StepRunsTheEncodedInstruction := by
  intro s i h
  obtain ⟨rest, hdecode⟩ := State.decode_bytesAt_of_holdsAt h
  rw [length_encode]
  exact stepRunsTheDecodedInstruction s i rest hdecode

/-! ### An instruction placed in memory -/

@[simp] theorem State.placeBytes_pc (s : State) (a : Word) (bytes : List Byte) : (s.placeBytes a bytes).pc = s.pc := by
  induction bytes generalizing s a with
  | nil => rfl
  | cons b rest ih => rw [State.placeBytes, ih, State.writeByte_pc]

/-- Placing bytes leaves every address alone that none of them goes to. -/
theorem State.readByte_placeBytes_outside (s : State) (a c : Word) (bytes : List Byte)
    (h : ∀ k < bytes.length, c ≠ a + BitVec.ofNat 16 k) : (s.placeBytes a bytes).readByte c = s.readByte c := by
  induction bytes generalizing s a with
  | nil => rfl
  | cons b rest ih =>
    have hfirst : c ≠ a := by simpa using h 0 (by simp)
    have hrest : ∀ k < rest.length, c ≠ a + 1 + BitVec.ofNat 16 k := by
      intro k hk
      have hnext : a + BitVec.ofNat 16 (k + 1) = a + 1 + BitVec.ofNat 16 k := by bv_omega
      exact hnext ▸ h (k + 1) (by simpa using hk)
    rw [State.placeBytes, ih _ _ hrest, State.readByte_writeByte_other _ hfirst]

/-- No two of at most 65536 bytes go to one address, so all of them are held afterwards. -/
theorem State.holdsAt_placeBytes (s : State) (a : Word) (bytes : List Byte) (hlen : bytes.length ≤ Config.memorySize) :
    (s.placeBytes a bytes).holdsAt a bytes := by
  induction bytes generalizing s a with
  | nil => trivial
  | cons b rest ih =>
    have hlen' : rest.length < 65536 := hlen
    refine ⟨?first, ih _ _ hlen'.le⟩
    have hapart : ∀ k < rest.length, a ≠ a + 1 + BitVec.ofNat 16 k := fun k hk => by bv_omega
    rw [State.placeBytes, State.readByte_placeBytes_outside _ _ _ _ hapart, State.readByte_writeByte_same]

/-- Settles O9: the placed bytes are held at `pc`, which placing leaves alone. -/
theorem placedInstructionRuns : Obligations.PlacedInstructionRuns := by
  intro s i
  have hpc : (s.placeBytes s.pc (encode i)).pc = s.pc := s.placeBytes_pc _ _
  have hlen : (encode i).length ≤ 65536 := by
    have := i.length_le
    rw [length_encode]
    omega
  have hheld : (s.placeBytes s.pc (encode i)).holdsAt (s.placeBytes s.pc (encode i)).pc (encode i) := by
    rw [hpc]
    exact s.holdsAt_placeBytes s.pc (encode i) hlen
  refine ⟨hpc, ?_⟩
  rw [stepRunsTheEncodedInstruction _ i hheld, hpc, length_encode]

/-! ### The program counter after a step -/

/-- A handler run with `pc` past its instruction leaves `pc` there unless it jumps. -/
theorem exec_final_pc {i : Instr} {s t : State} {a : Word} (h : exec i { s with pc := a + BitVec.ofNat 16 i.length } = .next t) :
    t.pc = i.finalPc a s.CY := by
  cases i with
  | jc addr => rw [exec_jc] at h; cases h; rfl
  | jnc addr => rw [exec_jnc] at h; cases h; rfl
  | _ => cases h; rfl

/-- Settles O15: the step is the handler run past the instruction's bytes. -/
theorem finalProgramCounter : Obligations.FinalProgramCounter := by
  intro s t i rest hdecode hstep
  rw [stepRunsTheDecodedInstruction s i rest hdecode] at hstep
  exact exec_final_pc hstep

/-! ### The reply and the step -/

/-- A reply `Ok` comes with the step's next state. -/
theorem step_of_executeNext_ok {s t : State} {n : Nat} (h : executeNext s = (t, .ok n)) : step s = .next t := by
  obtain ⟨u, m, hreply, hstep⟩ | ⟨-, hreply, -⟩ := executeNextHasTwoOutcomes s
  · cases hreply.symm.trans h
    exact hstep
  · cases hreply.symm.trans h

/-- Settles O14: the error leaves the state, and with it the byte that raised it. -/
theorem failedStepRepeats : Obligations.FailedStepRepeats := by
  intro s t f h
  obtain ⟨u, m, hreply, -⟩ | ⟨-, hreply, hstep⟩ := executeNextHasTwoOutcomes s
  · cases hreply.symm.trans h
  · cases hreply.symm.trans h
    exact ⟨rfl, hreply, hstep⟩

/-- Settles O16: the four instructions at the last addresses, where the sums of addresses wrap. -/
theorem fetchWrapsAtTheTopOfMemory : Obligations.FetchWrapsAtTheTopOfMemory := by
  refine ⟨fun s hpc hop => ?nop, fun s hpc hop => ?jmp, fun s hpc hop => ?lxiH, fun s hpc hop hcy => ?jc⟩ <;>
    rw [← hpc] at hop
  case nop =>
    have hstep := step_of_executeNext_ok (nopOnlyAdvances.2 s hop)
    rwa [hpc] at hstep
  case jmp =>
    have hstep := step_of_executeNext_ok (jmpGoesToItsAddress.2 s hop)
    rwa [hpc] at hstep
  case lxiH =>
    have hstep := step_of_executeNext_ok (lxiHLoadsThePair.2 s hop)
    rwa [hpc] at hstep
  case jc =>
    have hstep := step_of_executeNext_ok (jcJumpsOnCarry.2.2 s hop)
    rwa [if_neg (Bool.not_eq_true _ ▸ hcy), hpc] at hstep

end Sys2Proof.Machine
end

section
/-! SUPPORT. Proofs about memory (spec/20_memory.md): the access unit (R41, R42, R45, R47), the latest write (R52), the bytes an
instruction reads and writes (R48), and the canonical form (notes/assumptions/1.md). -/

namespace Sys2Proof.Machine

/-! ### The access unit -/

/-- A read of width 2 answers the byte at the offset and, above it, the byte at the next offset (20_memory.md R45). -/
theorem State.readBytes_two (s : State) (offset : Int) : s.readBytes 2 offset =
    .ok ((s.readByte (u16 offset)).toNat + 256 * (s.readByte (u16 (offset + 1))).toNat) := by
  have hnext : u16 offset + 1 = u16 (offset + 1) := (BitVec.ofInt_add offset 1).symm
  have hword : s.readBytes 2 offset = .ok (s.readWord (u16 offset)).toNat := rfl
  rw [hword, State.readWord, wordOf_toNat, hnext, Nat.add_comm, Nat.mul_comm]

/-- Only the offset modulo 2^16 counts (20_memory.md R47). -/
theorem u16_eq_iff {a b : Int} : u16 a = u16 b ↔ (a - b) % 65536 = 0 := by
  have ha := u16_toNat a
  have hb := u16_toNat b
  rw [← BitVec.toNat_inj]
  omega

/-- A read sees the offset through its reduction alone. -/
theorem State.readBytes_congr {a b : Int} (h : u16 a = u16 b) (s : State) (n : Nat) : s.readBytes n a = s.readBytes n b := by
  unfold State.readBytes
  rw [h]

theorem State.readBytes_other_width (s : State) {n : Nat} (offset : Int) (h1 : n ≠ 1) (h2 : n ≠ 2) :
    s.readBytes n offset = .error (.readWidth n) := by
  unfold State.readBytes
  split
  · exact absurd rfl h1
  · exact absurd rfl h2
  · rfl

/-- Settles O43, one clause per law of the access unit. -/
theorem memoryAccessUnit : Obligations.MemoryAccessUnit := by
  refine ⟨State.readBytes_two, fun s n offset => ?wraps, fun s a b value hab => ?frame, fun s _ => s.readBytes_other_width⟩
  case wraps => exact s.readBytes_congr (u16_eq_iff.mpr (by omega)) n
  case frame =>
    have hapart : u16 b ≠ u16 a := fun h => hab (u16_eq_iff.mp h.symm)
    rw [State.readBytes_one, State.readBytes_one, State.writeBytes, State.readByte_writeByte_other _ hapart]

/-! ### Writes in a row -/

/-- Memory after byte writes in a row. -/
def Memory.writeAll (m : Memory) (writes : List (Word × Byte)) : Memory := writes.foldl (fun m w => m.write w.1 w.2) m

/-- A byte reads as the latest write to it, or as it stood before (20_memory.md R52). -/
theorem Memory.read_writeAll (m : Memory) (writes : List (Word × Byte)) (a : Word) :
    (m.writeAll writes).read a = (writes.reverse.lookup a).getD (m.read a) := by
  induction writes generalizing m with
  | nil => rfl
  | cons w rest ih =>
    obtain ⟨b, v⟩ := w
    have hlast : [(b, v)].lookup a = if a = b then some v else none := by
      by_cases h : a = b
      · simp [List.lookup, h]
      · simp [List.lookup, h, beq_false_of_ne h]
    have hstep : m.writeAll ((b, v) :: rest) = (m.write b v).writeAll rest := rfl
    rw [hstep, ih, List.reverse_cons, List.lookup_append, hlast, Memory.read_write]
    cases rest.reverse.lookup a with
    | none => split <;> rfl
    | some u => rfl

/-- An address that no write goes to reads as before. -/
theorem Memory.read_writeAll_of_notMem (m : Memory) {writes : List (Word × Byte)} {a : Word} (h : a ∉ writes.map Prod.fst) :
    (m.writeAll writes).read a = m.read a := by
  have hnone : writes.reverse.lookup a = none := by
    rw [List.lookup_eq_none_iff]
    intro w hw
    have hne : a ≠ w.1 := fun e => h (e ▸ List.mem_map_of_mem (List.mem_reverse.mp hw))
    simpa using hne
  rw [Memory.read_writeAll, hnone, Option.getD_none]

/-- An address that some write goes to reads the same from whatever memory the writes began. -/
theorem Memory.read_writeAll_of_mem (m m' : Memory) {writes : List (Word × Byte)} {a : Word} (h : a ∈ writes.map Prod.fst) :
    (m.writeAll writes).read a = (m'.writeAll writes).read a := by
  rw [Memory.read_writeAll, Memory.read_writeAll]
  cases hlast : writes.reverse.lookup a with
  | some v => rfl
  | none =>
    obtain ⟨w, hw, rfl⟩ := List.mem_map.mp h
    have hmiss := List.lookup_eq_none_iff.mp hlast w (List.mem_reverse.mpr hw)
    simp at hmiss

theorem Memory.wf_writeAll (m : Memory) (writes : List (Word × Byte)) (hm : m.wf = true) : (m.writeAll writes).wf = true := by
  induction writes generalizing m with
  | nil => exact hm
  | cons w rest ih => exact ih _ (m.wf_write w.1 w.2 hm)

/-- Byte writes in a row change memory alone. -/
theorem State.foldl_writeByte (s : State) (writes : List (Word × Byte)) :
    writes.foldl (fun u w => u.writeByte w.1 w.2) s = { s with mem := s.mem.writeAll writes } := by
  induction writes generalizing s with
  | nil => rfl
  | cons w rest ih => rw [List.foldl_cons, ih]; rfl

/-- Settles O44, through the memory of the state. -/
theorem readReturnsTheLatestWrite : Obligations.ReadReturnsTheLatestWrite := by
  intro writes s a
  rw [State.foldl_writeByte]
  exact s.mem.read_writeAll writes a

/-! ### What a handler stores -/

end Sys2Proof.Machine

namespace Sys2Proof

/-- The byte writes an instruction's handler makes, in order (20_memory.md R48, R53). -/
def Instr.stores (i : Instr) (s : Machine.State) : List (Word × Byte) :=
  match i with
  | .mviM d8 => [(s.HL, d8)]
  | .sta addr => [(addr, s.A)]
  | .dcrM => [(s.HL, Machine.decrement s.readM)]
  | .pushB => [(s.sp - 1, s.B), (s.sp - 2, s.C)]
  | .pushD => [(s.sp - 1, s.D), (s.sp - 2, s.E)]
  | .pushH => [(s.sp - 1, s.H), (s.sp - 2, s.L)]
  | .call _ => [(s.sp - 1, hiByte s.pc), (s.sp - 2, loByte s.pc)]
  | .nop | .mviB _ | .mviC _ | .rrc | .mviD _ | .mviE _ | .lxiH _ | .mviH _ | .mviL _ | .mviA _ | .jmp _ | .jnc _ | .jc _ => []

/-- The writes go to the addresses listed for the instruction. -/
theorem Instr.stores_addresses (i : Instr) (s : Machine.State) : (i.stores s).map Prod.fst = i.storedAddresses s := by
  cases i <;> rfl

/-- Which addresses an instruction loads from and stores to does not depend on `pc`. -/
theorem Instr.loadedAddresses_advancePc (i : Instr) (s : Machine.State) (n : Nat) :
    i.loadedAddresses (s.advancePc n) = i.loadedAddresses s := by
  cases i <;> rfl

theorem Instr.storedAddresses_advancePc (i : Instr) (s : Machine.State) (n : Nat) :
    i.storedAddresses (s.advancePc n) = i.storedAddresses s := by
  cases i <;> rfl

end Sys2Proof

namespace Sys2Proof.Machine

/-- In another memory that agrees on the bytes the instruction loads, a handler makes the same writes to that memory, and
everything else comes out the same. DCR M alone loads a byte. -/
theorem exec_with_mem {i : Instr} {s : State} {m : Memory} (h : ∀ a ∈ i.loadedAddresses s, m.read a = s.readByte a) :
    exec i { s with mem := m } = mapNext (fun t => { t with mem := m.writeAll (i.stores s) }) (exec i s) := by
  cases i with
  | dcrM =>
    have hloaded : State.readM { s with mem := m } = s.readM := h s.HL (List.mem_singleton.mpr rfl)
    simp only [exec, execDcrM_eq, hloaded]
    rfl
  | jc addr => rw [exec_jc, exec_jc]; rfl
  | jnc addr => rw [exec_jnc, exec_jnc]; rfl
  | _ => rfl

/-- A handler changes memory by its writes: the case of `exec_with_mem` in which the memory is not another one. -/
theorem exec_mem {i : Instr} {s t : State} (h : exec i s = .next t) : t.mem = s.mem.writeAll (i.stores s) := by
  have hsame : exec i s = mapNext (fun t => { t with mem := s.mem.writeAll (i.stores s) }) (exec i s) :=
    exec_with_mem fun _ _ => rfl
  rw [h] at hsame
  exact congrArg State.mem (Host.Outcome.next.inj hsame)

/-- Settles O39: the handler's writes go to the listed addresses. -/
theorem memoryChangesOnlyWhereListed : Obligations.MemoryChangesOnlyWhereListed := by
  intro i s t h a ha
  rw [← Instr.stores_addresses] at ha
  rw [State.readByte, exec_mem h, s.mem.read_writeAll_of_notMem ha, State.readByte]

/-- In another memory that holds the same instruction at `pc` and agrees on the bytes it loads, a step makes the same writes to
that memory, and everything else comes out the same. -/
theorem step_with_mem {s : State} {m : Memory} {i : Instr} (hheld : s.holdsAt s.pc (encode i))
    (hheld' : State.holdsAt { s with mem := m } s.pc (encode i)) (hloaded : ∀ a ∈ i.loadedAddresses s, m.read a = s.readByte a) :
    step { s with mem := m } =
      mapNext (fun t => { t with mem := m.writeAll (i.stores (s.advancePc (encode i).length)) }) (step s) := by
  rw [← i.loadedAddresses_advancePc s (encode i).length] at hloaded
  rw [stepRunsTheEncodedInstruction s i hheld, stepRunsTheEncodedInstruction _ i hheld']
  exact exec_with_mem hloaded

/-- Settles O40: the two steps make the same writes, one to each memory. -/
theorem stepReadsOnlyItsOwnBytesAndM : Obligations.StepReadsOnlyItsOwnBytesAndM := by
  intro s t m i hheld hheld' hloaded hstep
  have hother := step_with_mem hheld hheld' hloaded
  have hmem : t.mem = s.mem.writeAll (i.stores (s.advancePc (encode i).length)) := by
    rw [stepRunsTheEncodedInstruction s i hheld] at hstep
    exact exec_mem hstep
  rw [hstep, mapNext] at hother
  refine ⟨_, hother, rfl, fun a ha => ?stored, fun a ha => ?frame⟩ <;>
    rw [← i.storedAddresses_advancePc s (encode i).length, ← Instr.stores_addresses] at ha
  case stored =>
    rw [State.readByte, State.readByte, hmem]
    exact Memory.read_writeAll_of_mem _ _ ha
  case frame => exact m.read_writeAll_of_notMem ha

/-! ### The canonical form -/

/-- A step that answers `next` is a handler run in the state with `pc` advanced. -/
theorem exists_exec_of_step {s t : State} (h : step s = .next t) : ∃ i n, exec i (s.advancePc n) = .next t := by
  cases hrow : lookup s.fetchOpcode with
  | none =>
    rw [step, dispatchNext_of_lookup_none hrow] at h
    cases h
  | some d =>
    rw [step, dispatchNext_of_lookup_some hrow] at h
    exact ⟨_, _, h⟩

/-- Settles O45: the handler changes memory by byte writes, each of which keeps the canonical form. -/
theorem stepKeepsMemoryCanonical : Obligations.StepKeepsMemoryCanonical := by
  intro s t hwf hstep
  obtain ⟨i, n, hexec⟩ := exists_exec_of_step hstep
  rw [exec_mem hexec]
  exact Memory.wf_writeAll _ _ hwf

end Sys2Proof.Machine
end

section
/-! SUPPORT. Proofs about single instructions: a CALL over its own operand (20_memory.md R53), the stack at address 0x0000
(42_stack.md section 3), MVI r (43_data_transfer.md R150 to R157), MVI M over the next opcode (20_memory.md R56), and DCR M
(44_arith_logic.md R180, R181). -/

namespace Sys2Proof.Machine

/-! ### CALL and the stack -/

/-- Settles O22: the target is read before the push, whose two addresses are those of the operand bytes. -/
theorem callReadsItsTargetBeforeThePush : Obligations.CallReadsItsTargetBeforeThePush := by
  intro s hop hsp
  obtain ⟨t, hreply, hhigh, hlow, hframe, hfields⟩ := callPushesTheReturnAddress.2 s hop
  have hhighAt : s.sp - 1 = s.pc + 2 := by rw [hsp]; bv_omega
  have hlowAt : s.sp - 2 = s.pc + 1 := by rw [hsp]; bv_omega
  have hopcode : t.readByte s.pc = s.readByte s.pc :=
    hframe s.pc (fun e => by bv_omega) (fun e => by bv_omega)
  refine ⟨t, step_of_executeNext_ok hreply, congrArg State.pc hfields, ?sp, hlowAt ▸ hlow, hhighAt ▸ hhigh, hopcode.trans hop⟩
  exact (congrArg State.sp hfields).trans hlowAt

/-- Settles O25: the push at the three stack pointers next to 0x0000, where its addresses wrap. -/
theorem stackWrapsAtZero : Obligations.StackWrapsAtZero := by
  intro s hi lo
  obtain ⟨hhigh, hlow, -, -⟩ := s.pushedInto_pushPair hi lo
  have hsp : (s.pushPair hi lo).sp = s.sp - 2 := s.pushPair_sp hi lo
  refine ⟨fun h => ?zero, fun h => ?one, fun h => ?two⟩ <;> rw [h] at hhigh hlow hsp <;> exact ⟨hhigh, hlow, hsp⟩

/-! ### MVI -/

/-- Settles O27, each instruction by its handler. -/
theorem mviLoadsItsRegister : Obligations.MviLoadsItsRegister := fun _ _ => ⟨rfl, rfl, rfl, rfl, rfl, rfl, rfl⟩

/-- On a two-byte row whose instruction loads register `r`, the reply is the byte after the opcode in `r`, with `pc` two further. -/
theorem executeNext_of_row_mvi {s : State} {name : String} {cycles : Nat} {make : Byte → Instr} (r : Reg)
    (hrow : lookup s.fetchOpcode = some ⟨name, 2, cycles, .f2 make⟩)
    (hexec : ∀ (d8 : Byte) (u : State), exec (make d8) u = .next (u.setReg r d8)) :
    executeNext s = ((s.advancePc 2).setReg r (s.readByte (s.pc + 1)), .ok cycles) := by
  rw [executeNext_of_row_f2 hrow, hexec, replyTo]

/-- Settles O28: each opcode selects the row of its register. -/
theorem mviOpcodesSelectTheirRegister : Obligations.MviOpcodesSelectTheirRegister := fun _ =>
  ⟨fun hop => executeNext_of_row_mvi .B (congrArg lookup hop) fun _ _ => rfl,
    fun hop => executeNext_of_row_mvi .C (congrArg lookup hop) fun _ _ => rfl,
    fun hop => executeNext_of_row_mvi .D (congrArg lookup hop) fun _ _ => rfl,
    fun hop => executeNext_of_row_mvi .E (congrArg lookup hop) fun _ _ => rfl,
    fun hop => executeNext_of_row_mvi .H (congrArg lookup hop) fun _ _ => rfl,
    fun hop => executeNext_of_row_mvi .L (congrArg lookup hop) fun _ _ => rfl,
    fun hop => executeNext_of_row_mvi .A (congrArg lookup hop) fun _ _ => rfl⟩

/-- Settles O41: MVI M leaves its immediate at `pc + 2`, where the next step fetches. -/
theorem storeIsSeenByTheNextFetch : Obligations.StoreIsSeenByTheNextFetch := by
  intro s t hop hHL hstep
  obtain ⟨u, hreply, hstored, -, hfields⟩ := mviMStoresAtHL.2 s hop
  obtain rfl : u = t := Host.Outcome.next.inj ((step_of_executeNext_ok hreply).symm.trans hstep)
  have hpc : u.pc = s.pc + 2 := congrArg State.pc hfields
  have hfetch : u.readByte u.pc = s.readByte (s.pc + 1) := by
    rw [hpc, ← hHL]
    exact hstored
  refine ⟨fun hillegal => ?illegal, fun hnop => ?nop⟩
  case illegal =>
    have hfault := (unknownOpcodeWritesNoState u (hfetch.symm ▸ hillegal)).1
    rwa [hfetch, hpc] at hfault
  case nop =>
    have hnext := step_of_executeNext_ok (nopOnlyAdvances.2 u (hfetch.trans hnop))
    have hafter : s.pc + 2 + 1 = s.pc + 3 := by bv_omega
    rwa [hpc, hafter] at hnext

/-! ### DCR M -/

/-- The masked low nibble is the remainder by 16. -/
theorem dcrAuxCarry_eq (res : Byte) : dcrAuxCarry res = decide (res.toNat % 16 = 0) := by
  have hnibble : (res &&& 0x0F#8).toNat = res.toNat % 16 := by
    rw [BitVec.toNat_and]
    exact Nat.and_two_pow_sub_one_eq_mod res.toNat 4
  rw [dcrAuxCarry, beq_eq_decide, decide_eq_decide, ← BitVec.toNat_inj, hnibble]
  rfl

theorem dcrZero_decrement (old : Byte) : dcrZero (decrement old) = decide (old = 1) := by
  rw [dcrZero, decrement, beq_eq_decide, decide_eq_decide]
  exact sub_eq_zero

/-- Bit 7 is the sign bit of a byte. -/
theorem dcrSign_eq (res : Byte) : dcrSign res = decide (128 ≤ res.toNat) :=
  (BitVec.msb_eq_getLsbD_last res).symm.trans (BitVec.msb_eq_decide res)

theorem exec_dcrM (s : State) : exec .dcrM s = .next ((s.writeByte s.HL (s.readByte s.HL - 1)).setDcrFlags (s.readByte s.HL - 1)) :=
  rfl

/-- Settles O33: one byte write, and the three flags of its result. -/
theorem dcrMDecrementsTheByteAtHL : Obligations.DcrMDecrementsTheByteAtHL := by
  refine ⟨fun s => ?exec, fun s hop => ?step⟩
  case exec =>
    obtain ⟨hsame, hother, -⟩ := s.storedInto_writeByte s.HL (s.readByte s.HL - 1)
    refine ⟨_, exec_dcrM s, hsame, hother, ?fields⟩
    rw [← dcrAuxCarry_eq, ← dcrSign_eq, ← dcrZero_decrement]
    rfl
  case step =>
    have hrow : lookup s.fetchOpcode = some ⟨"DCR M", 1, 10, .f1 .dcrM⟩ := congrArg lookup hop
    rw [executeNext_of_row_f1 hrow, exec_dcrM]
    exact ⟨_, rfl, exec_dcrM _⟩

/-- Settles O34, by induction on the number of DCR Ms: each leaves HL, so the next one decrements the same byte. -/
theorem repeatedDcrMCountsDown : Obligations.RepeatedDcrMCountsDown := by
  intro n
  induction n with
  | zero => exact fun s => ⟨s, rfl, (BitVec.sub_zero _).symm, fun _ _ => rfl, rfl⟩
  | succ n ih =>
    intro s
    obtain ⟨u, hexec, hbyte, hframe, hfields⟩ := dcrMDecrementsTheByteAtHL.1 s
    obtain ⟨t, htimes, hbyte', hframe', hfields'⟩ := ih u
    have hHL : u.HL = s.HL := by rw [hfields]; rfl
    rw [hHL] at hbyte' hframe'
    refine ⟨t, ?run, ?byte, fun a ha => (hframe' a ha).trans (hframe a ha), ?fields⟩
    case run => rw [execTimes, hexec]; exact htimes
    case byte => rw [hbyte', hbyte]; bv_omega
    case fields => rw [hfields', hfields]

end Sys2Proof.Machine
end

section
/-! SUPPORT. Proofs about what an instruction reads and writes of the registers, the flags and `sp` (spec/10_state.md R25, R28,
R30). -/

namespace Sys2Proof.Machine

/-! ### The stack pointer -/

theorem exec_sp {i : Instr} {s t : State} (h : exec i s = .next t) : t.sp = if i.pushes then s.sp - 2 else s.sp := by
  cases i with
  | jc addr => rw [exec_jc] at h; cases h; rfl
  | jnc addr => rw [exec_jnc] at h; cases h; rfl
  | _ => cases h; rfl

/-- A handler that does not push commutes with any change of `sp`. -/
theorem exec_setSp {i : Instr} (h : i.pushes = false) (s : State) (w : Word) :
    exec i (s.setSp w) = mapNext (fun t => t.setSp w) (exec i s) := by
  cases i with
  | pushB | pushD | pushH | call addr => cases h
  | jc addr => rw [exec_jc, exec_jc]; rfl
  | jnc addr => rw [exec_jnc, exec_jnc]; rfl
  | _ => rfl

/-- Settles O26, one clause for the writes of `sp` and one for its reads. -/
theorem onlyPushesMoveTheStackPointer : Obligations.OnlyPushesMoveTheStackPointer :=
  ⟨fun _ _ _ => exec_sp, fun _ s w h => exec_setSp h s w⟩

/-! ### The registers -/

@[simp] theorem State.getReg_jumpTo (s : State) (w : Word) (r : Reg) : (s.jumpTo w).getReg r = s.getReg r := by
  cases r <;> rfl

@[simp] theorem State.getReg_pushPair (s : State) (hi lo : Byte) (r : Reg) : (s.pushPair hi lo).getReg r = s.getReg r := by
  cases r <;> simp [State.getReg]

/-- The MVI family writes its own register alone. -/
theorem moveImmediate_getReg {q r : Reg} {d8 : Byte} {s t : State} (h : moveImmediate q d8 s = .next t) (hr : r ∉ [q]) :
    t.getReg r = s.getReg r := by
  rw [moveImmediate_eq] at h
  cases h
  exact s.getReg_setReg_other (List.mem_singleton.not.mp hr) d8

/-- A handler leaves a register alone that its instruction is not listed as writing. -/
theorem exec_getReg {i : Instr} {s t : State} {r : Reg} (h : exec i s = .next t) (hr : r ∉ i.writtenRegs) :
    t.getReg r = s.getReg r := by
  cases i with
  | mviA d8 | mviB d8 | mviC d8 | mviD d8 | mviE d8 | mviH d8 | mviL d8 => exact moveImmediate_getReg h hr
  | rrc => cases h; cases r with | A => simp [Instr.writtenRegs] at hr | _ => rfl
  | lxiH d16 => cases h; cases r with | H | L => simp [Instr.writtenRegs] at hr | _ => rfl
  | jc addr => rw [exec_jc] at h; cases h; exact s.getReg_jumpTo _ r
  | jnc addr => rw [exec_jnc] at h; cases h; exact s.getReg_jumpTo _ r
  | pushB => rw [exec_pushB] at h; cases h; exact s.getReg_pushPair _ _ r
  | pushD => rw [exec_pushD] at h; cases h; exact s.getReg_pushPair _ _ r
  | pushH => rw [exec_pushH] at h; cases h; exact s.getReg_pushPair _ _ r
  | call addr => rw [exec_call] at h; cases h; rw [State.getReg_pushPair, State.getReg_jumpTo]
  | nop | sta addr | dcrM | mviM d8 | jmp addr => cases h; cases r <;> rfl

/-- A register that an instruction does not read is overwritten by its handler, if the instruction writes it, and else carried
through. -/
theorem exec_setReg {i : Instr} {r : Reg} (hr : r ∉ i.readRegs) (s : State) (v : Byte) :
    exec i (s.setReg r v) = mapNext (fun t => if r ∈ i.writtenRegs then t else t.setReg r v) (exec i s) := by
  cases i with
  | sta addr | rrc => cases r with | A => simp [Instr.readRegs] at hr | _ => rfl
  | pushB => cases r with | B | C => simp [Instr.readRegs] at hr | _ => rfl
  | pushD => cases r with | D | E => simp [Instr.readRegs] at hr | _ => rfl
  | pushH | mviM d8 | dcrM => cases r with | H | L => simp [Instr.readRegs] at hr | _ => rfl
  | jc addr => rw [exec_jc, exec_jc]; cases r <;> rfl
  | jnc addr => rw [exec_jnc, exec_jnc]; cases r <;> rfl
  | nop | mviB d8 | mviC d8 | mviD d8 | mviE d8 | lxiH d16 | mviH d8 | mviL d8 | mviA d8 | jmp addr | call addr =>
    cases r <;> rfl

/-- Changing an outcome's state by what leaves every state alone changes nothing. -/
theorem mapNext_id (o : Host.Outcome State Fault Refusal) : mapNext (fun t => t) o = o := by
  cases o <;> rfl

/-- Settles O36: a register not read is carried through or overwritten, as the instruction is listed to write it or not. -/
theorem registerAccessIsAsListed : Obligations.RegisterAccessIsAsListed := by
  refine ⟨fun _ _ _ _ => exec_getReg, fun i s r v hread hwritten => ?carried, fun i s r v hread hwritten => ?overwritten⟩
  case carried => simp only [exec_setReg hread, hwritten, if_false]
  case overwritten => simp only [exec_setReg hread, hwritten, if_true, mapNext_id]

/-! ### The flags -/

@[simp] theorem State.getFlag_jumpTo (s : State) (w : Word) (f : Flag) : (s.jumpTo w).getFlag f = s.getFlag f := by
  cases f <;> rfl

@[simp] theorem State.getFlag_pushPair (s : State) (hi lo : Byte) (f : Flag) : (s.pushPair hi lo).getFlag f = s.getFlag f := by
  cases f <;> simp [State.getFlag]

/-- A handler leaves a flag alone that its instruction is not listed as writing. -/
theorem exec_getFlag {i : Instr} {s t : State} {f : Flag} (h : exec i s = .next t) (hf : f ∉ i.writtenFlags) :
    t.getFlag f = s.getFlag f := by
  cases i with
  | rrc => cases h; cases f with | CY => simp [Instr.writtenFlags] at hf | _ => rfl
  | dcrM => cases h; cases f with | AC | S | Z => simp [Instr.writtenFlags] at hf | _ => rfl
  | jc addr => rw [exec_jc] at h; cases h; exact s.getFlag_jumpTo _ f
  | jnc addr => rw [exec_jnc] at h; cases h; exact s.getFlag_jumpTo _ f
  | pushB => rw [exec_pushB] at h; cases h; exact s.getFlag_pushPair _ _ f
  | pushD => rw [exec_pushD] at h; cases h; exact s.getFlag_pushPair _ _ f
  | pushH => rw [exec_pushH] at h; cases h; exact s.getFlag_pushPair _ _ f
  | call addr => rw [exec_call] at h; cases h; rw [State.getFlag_pushPair, State.getFlag_jumpTo]
  | _ => cases h; cases f <;> rfl

/-- A flag that an instruction does not read is overwritten by its handler, if the instruction writes it, and else carried
through. The conditional jumps alone read a flag. -/
theorem exec_setFlag {i : Instr} {f : Flag} (hf : f ∉ i.readFlags) (s : State) (v : Bool) :
    exec i (s.setFlag f v) = mapNext (fun t => if f ∈ i.writtenFlags then t else t.setFlag f v) (exec i s) := by
  cases i with
  | jc addr => rw [exec_jc, exec_jc]; cases f with | CY => simp [Instr.readFlags] at hf | _ => rfl
  | jnc addr => rw [exec_jnc, exec_jnc]; cases f with | CY => simp [Instr.readFlags] at hf | _ => rfl
  | _ => cases f <;> rfl

/-- Settles O37: a flag not read is carried through or overwritten, as the instruction is listed to write it or not. -/
theorem flagAccessIsAsListed : Obligations.FlagAccessIsAsListed := by
  refine ⟨fun _ _ _ _ => exec_getFlag, fun i s f v hread hwritten => ?carried, fun i s f v hread hwritten => ?overwritten⟩
  case carried => simp only [exec_setFlag hread, hwritten, if_false]
  case overwritten => simp only [exec_setFlag hread, hwritten, if_true, mapNext_id]

end Sys2Proof.Machine
end

section
/-! SUPPORT. Proofs about construction, loading and snapshots (spec/70_reset_and_hazards.md R230 to R236; spec/10_state.md R36,
R37): the first step, the snapshot, the launch states, and when the host may load. -/

namespace Sys2Proof.Machine

/-! ### Construction -/

/-- Settles O47: the constructed memory lists no cell, so the byte at the entry point is zero, a NOP. -/
theorem resetIsCanonicalAndRuns : Obligations.ResetIsCanonicalAndRuns :=
  ⟨State.reset_mem_wf, nopOnlyAdvances.2 State.reset (Memory.read_nil _)⟩

/-! ### The snapshot -/

theorem State.snapshot_mem (s : State) {k : Nat} (hk : k < Config.memorySize) :
    s.snapshot.mem[k] = s.readByte (BitVec.ofNat 16 k) :=
  Vector.getElem_ofFn hk

/-- Settles O48: the bytes are the vector's entries; every other field is copied. -/
theorem snapshotIsAReadOnlyCopy : Obligations.SnapshotIsAReadOnlyCopy :=
  ⟨fun _ => rfl, fun s => ⟨⟨rfl, rfl, rfl, rfl, rfl, rfl, rfl⟩, ⟨rfl, rfl, rfl, rfl, rfl⟩, rfl, rfl,
    fun _ => s.snapshot_mem⟩⟩

/-! ### Canonical memories with the same bytes -/

/-- A canonical list does not hold the unlisted byte at its first address, so a canonical list that reads the same there begins
no higher. -/
theorem Memory.first_le_of_lookupAt_eq {a b : Nat} {v w : Byte} {rest rest' : Memory} (hv : v ≠ Config.unlistedByte)
    (hm' : Memory.wfFrom b ((b, w) :: rest') = true)
    (h : Memory.lookupAt ((a, v) :: rest) a = Memory.lookupAt ((b, w) :: rest') a) : b ≤ a := by
  by_contra hlt
  rw [Memory.lookupAt_below hm' (by omega), Memory.lookupAt, if_pos rfl] at h
  exact hv h

/-- Two canonical lists that read the same at every address are one list. -/
theorem Memory.eq_of_lookupAt_eq {m m' : Memory} {low : Nat} (hm : Memory.wfFrom low m = true) (hm' : Memory.wfFrom low m' = true)
    (h : ∀ k < Config.memorySize, m.lookupAt k = m'.lookupAt k) : m = m' := by
  induction m generalizing low m' with
  | nil =>
    cases m' with
    | nil => rfl
    | cons c rest' =>
      obtain ⟨b, w⟩ := c
      obtain ⟨-, hb, hw, -⟩ := (Memory.wfFrom_cons _ _ _ _).mp hm'
      have hread := h b hb
      rw [Memory.lookupAt, Memory.lookupAt, if_pos rfl] at hread
      exact absurd hread.symm hw
  | cons c rest ih =>
    obtain ⟨a, v⟩ := c
    obtain ⟨-, ha, hv, hrest⟩ := (Memory.wfFrom_cons _ _ _ _).mp hm
    cases m' with
    | nil =>
      have hread := h a ha
      rw [Memory.lookupAt, Memory.lookupAt, if_pos rfl] at hread
      exact absurd hread hv
    | cons c' rest' =>
      obtain ⟨b, w⟩ := c'
      obtain ⟨-, hb, hw, hrest'⟩ := (Memory.wfFrom_cons _ _ _ _).mp hm'
      obtain rfl : a = b := Nat.le_antisymm
        (Memory.first_le_of_lookupAt_eq hw ((Memory.wfFrom_cons _ _ _ _).mpr ⟨le_rfl, ha, hv, hrest⟩) (h b hb).symm)
        (Memory.first_le_of_lookupAt_eq hv ((Memory.wfFrom_cons _ _ _ _).mpr ⟨le_rfl, hb, hw, hrest'⟩) (h a ha))
      obtain rfl : v = w := by simpa [Memory.lookupAt] using h a ha
      have hsame : ∀ k < Config.memorySize, Memory.lookupAt rest k = Memory.lookupAt rest' k := by
        intro k hk
        by_cases hka : k ≤ a
        · rw [Memory.lookupAt_below hrest (by omega), Memory.lookupAt_below hrest' (by omega)]
        · have hread := h k hk
          rwa [Memory.lookupAt, Memory.lookupAt, if_neg (by omega), if_neg (by omega)] at hread
      rw [ih hrest hrest' hsame]

/-- Two canonical memories with the same bytes are equal. -/
theorem Memory.eq_of_read_eq {m m' : Memory} (hm : m.wf = true) (hm' : m'.wf = true) (h : ∀ a, m.read a = m'.read a) :
    m = m' := by
  refine Memory.eq_of_lookupAt_eq hm hm' fun k hk => ?_
  have haddress : (BitVec.ofNat 16 k).toNat = k := Nat.mod_eq_of_lt hk
  have hread := h (BitVec.ofNat 16 k)
  rwa [Memory.read, Memory.read, haddress] at hread

/-- States with canonical memory, the same bytes and otherwise the same fields are equal. -/
theorem State.eq_of_readByte_eq {s t : State} (hs : s.mem.wf = true) (ht : t.mem.wf = true) (hfields : s = { t with mem := s.mem })
    (hbytes : ∀ a, s.readByte a = t.readByte a) : s = t := by
  rw [hfields, Memory.eq_of_read_eq hs ht hbytes]

/-- Settles O49: every field is an entry of the snapshot, and the bytes determine a canonical memory. -/
theorem snapshotDeterminesTheState : Obligations.SnapshotDeterminesTheState := by
  intro s t hs ht h
  refine State.eq_of_readByte_eq hs ht ?fields fun a => ?bytes
  case fields =>
    rw [State.mk.injEq]
    exact ⟨congrArg Snapshot.A h, congrArg Snapshot.B h, congrArg Snapshot.C h, congrArg Snapshot.D h, congrArg Snapshot.E h,
      congrArg Snapshot.H h, congrArg Snapshot.L h, congrArg Snapshot.pc h, congrArg Snapshot.sp h, congrArg Snapshot.CY h,
      congrArg Snapshot.AC h, congrArg Snapshot.S h, congrArg Snapshot.Z h, congrArg Snapshot.P h, rfl⟩
  case bytes =>
    have ha : a.toNat < Config.memorySize := a.isLt
    have hentry : s.snapshot.mem[a.toNat] = t.snapshot.mem[a.toNat] := by rw [h]
    rwa [State.snapshot_mem, State.snapshot_mem, BitVec.ofNat_toNat, BitVec.setWidth_eq] at hentry

/-! ### The launch states -/

theorem State.load_mem_wf {s : State} (h : s.mem.wf = true) (w : LoadWrite) : (s.load w).mem.wf = true := by
  cases w with
  | byte a v => exact Memory.wf_write _ _ _ h
  | reg r v => rwa [State.load, State.setReg_mem_field]
  | flag f v => rwa [State.load, State.setFlag_mem_field]
  | pc v => exact h
  | sp v => exact h

theorem State.foldl_load_mem_wf (writes : List LoadWrite) {s : State} (h : s.mem.wf = true) :
    (writes.foldl State.load s).mem.wf = true := by
  induction writes generalizing s with
  | nil => exact h
  | cons w rest ih => exact ih (State.load_mem_wf h w)

theorem launchState_mem_wf (writes : List LoadWrite) : (launchState writes).mem.wf = true :=
  State.foldl_load_mem_wf writes State.reset_mem_wf

/-- Writing a function's value at each address of a list leaves it there, and every other byte as before. -/
theorem Memory.read_writeAll_map (m : Memory) (value : Word → Byte) (addresses : List Word) (a : Word) :
    (m.writeAll (addresses.map fun b => (b, value b))).read a = if a ∈ addresses then value a else m.read a := by
  induction addresses generalizing m with
  | nil => rfl
  | cons b rest ih =>
    have hstep : m.writeAll ((b :: rest).map fun b => (b, value b)) =
        (m.write b (value b)).writeAll (rest.map fun b => (b, value b)) := rfl
    rw [hstep, ih, Memory.read_write]
    by_cases hrest : a ∈ rest
    · simp [hrest]
    · by_cases hb : a = b <;> simp [hrest, hb]

/-- The addresses of the cells of a memory. -/
def Memory.addresses (m : Memory) : List Word := m.map fun c => BitVec.ofNat 16 c.1

theorem Memory.lookupAt_of_absentAt {m : Memory} {k : Nat} (h : m.absentAt k) : m.lookupAt k = Config.unlistedByte := by
  induction m with
  | nil => rfl
  | cons c rest ih =>
    obtain ⟨hc, hrest⟩ := List.forall_mem_cons.mp h
    rw [Memory.lookupAt, if_neg hc, ih hrest]

/-- An address without a cell reads the unlisted byte. -/
theorem Memory.read_of_notMem_addresses {m : Memory} {a : Word} (h : a ∉ m.addresses) : m.read a = Config.unlistedByte := by
  refine Memory.lookupAt_of_absentAt fun c hc hk => h (List.mem_map.mpr ⟨c, hc, ?_⟩)
  rw [hk, BitVec.ofNat_toNat, BitVec.setWidth_eq]

/-- The loader writes that set every field but memory as `s` has it. -/
def State.fieldWrites (s : State) : List LoadWrite :=
  [.reg .A s.A, .reg .B s.B, .reg .C s.C, .reg .D s.D, .reg .E s.E, .reg .H s.H, .reg .L s.L, .flag .CY s.CY, .flag .AC s.AC,
    .flag .S s.S, .flag .Z s.Z, .flag .P s.P, .pc s.pc, .sp s.sp]

/-- The loader writes that store the bytes of `s` at the addresses its memory lists. -/
def State.byteWrites (s : State) : List LoadWrite := s.mem.addresses.map fun a => .byte a (s.readByte a)

theorem launchState_fieldWrites (s : State) : launchState s.fieldWrites = { s with mem := [] } := by
  simp [launchState, State.fieldWrites, State.load, State.jumpTo, State.setSp, State.reset]

theorem State.foldl_load_byteWrites (s t : State) : s.byteWrites.foldl State.load t =
    { t with mem := t.mem.writeAll (s.mem.addresses.map fun a => (a, s.readByte a)) } := by
  rw [← State.foldl_writeByte, State.byteWrites, List.foldl_map, List.foldl_map]
  rfl

/-- The field writes and then the byte writes of a state with canonical memory make that state. -/
theorem launchState_of_mem_wf {s : State} (h : s.mem.wf = true) : launchState (s.fieldWrites ++ s.byteWrites) = s := by
  have hlaunch : launchState (s.fieldWrites ++ s.byteWrites) =
      { s with mem := Memory.writeAll [] (s.mem.addresses.map fun a => (a, s.readByte a)) } := by
    rw [launchState, List.foldl_append, ← launchState, launchState_fieldWrites, State.foldl_load_byteWrites]
  refine State.eq_of_readByte_eq (launchState_mem_wf _) h (by rw [hlaunch]) fun a => ?bytes
  rw [hlaunch, State.readByte, Memory.read_writeAll_map]
  split
  · rfl
  · next hcell => exact (Memory.read_of_notMem_addresses hcell).symm

/-- Settles O50: every load keeps the canonical form, and the writes that set each field and each listed byte make a given
canonical state. -/
theorem launchStatesAreTheCanonicalStates : Obligations.LaunchStatesAreTheCanonicalStates := by
  refine fun s => ⟨fun h => ⟨_, launchState_of_mem_wf h⟩, ?launched⟩
  rintro ⟨writes, rfl⟩
  exact launchState_mem_wf writes

/-! ### The host -/

/-- A host action after the first step leaves the session started. -/
theorem Session.started_of_act {h h' : Session} {a : HostAction} {r : HostReply} (hstarted : h.started = true)
    (hact : h.act a = some (h', r)) : h'.started = true := by
  cases a with
  | load w => rw [Session.act, if_pos hstarted] at hact; cases hact
  | step => cases hact; rfl
  | snapshot => cases hact; exact hstarted

/-- Settles O51, clause by clause from the three actions. -/
theorem noLoadAfterTheFirstStep : Obligations.NoLoadAfterTheFirstStep := by
  refine ⟨fun h w hnew => ?before, fun h w hstarted => ?after, fun h h' r hact => ?step, fun _ _ _ _ => Session.started_of_act⟩
  case before => rw [Session.act, hnew, if_neg Bool.false_ne_true]
  case after => rw [Session.act, if_pos hstarted]
  case step => cases hact; rfl

end Sys2Proof.Machine
end

section
/-! SUPPORT. Proofs about the end of a run (spec/70_reset_and_hazards.md R238): the stop address, the fault, and that a run that
has ended stays so. -/

namespace Sys2Proof.Machine

/-! ### The stop address -/

/-- The bytes of the jump to itself, written out (30_encoding.md R61, R64). -/
theorem State.atStop_iff {s : State} {stop : Word} : s.atStop stop = true ↔
    s.pc = stop ∧ s.readByte stop = 0xC3#8 ∧ s.readByte (stop + 1) = loByte stop ∧ s.readByte (stop + 2) = hiByte stop := by
  have hword : s.readWord (stop + 1) = stop ↔ s.readByte (stop + 1) = loByte stop ∧ s.readByte (stop + 2) = hiByte stop := by
    rw [State.readWord, add_one_add_one]
    refine ⟨fun h => ?split, fun h => ?join⟩
    case split => exact ⟨by rw [← h, loByte_wordOf, h], by rw [← h, hiByte_wordOf, h]⟩
    case join => rw [h.1, h.2, wordOf_hiByte_loByte]
  rw [State.atStop, Bool.and_eq_true, Bool.and_eq_true, beq_iff_eq, beq_iff_eq, beq_iff_eq, hword, and_assoc]

/-- Settles O53: the step is the jump, and its target is where it stands. -/
theorem stopAddressIsAFixedPoint : Obligations.StopAddressIsAFixedPoint := by
  intro s stop h
  obtain ⟨hpc, hop, hlow, hhigh⟩ := State.atStop_iff.mp h
  subst hpc
  have hstep := step_of_executeNext_ok (jmpGoesToItsAddress.2 s hop)
  have htarget : s.operandWord s.pc = s.pc := by rw [State.operandWord, hlow, hhigh, wordOf_hiByte_loByte]
  rw [htarget] at hstep
  exact hstep

/-- A byte outside the table is no jump. -/
theorem State.not_atStop_of_lookup_none {s : State} (stop : Word) (h : lookup (s.readByte s.pc) = none) :
    s.atStop stop = false := by
  rw [← Bool.not_eq_true, State.atStop_iff]
  rintro ⟨rfl, hop, -⟩
  rw [hop] at h
  cases h

/-! ### A bounded run, by its first step -/

theorem runTo_of_atStop {s : State} {stop : Word} (h : s.atStop stop = true) (n : Nat) : runTo stop n s = .finished s := by
  cases n <;> rw [runTo, if_pos h]

theorem runTo_zero_of_not_atStop {s : State} {stop : Word} (h : s.atStop stop = false) : runTo stop 0 s = .unfinished s := by
  rw [runTo, h, if_neg Bool.false_ne_true]

theorem runTo_succ_of_next {s t : State} {stop : Word} (h : s.atStop stop = false) (hstep : step s = .next t) (n : Nat) :
    runTo stop (n + 1) s = runTo stop n t := by
  rw [runTo, h, if_neg Bool.false_ne_true, hstep]

theorem runTo_succ_of_fault {s : State} {f : Fault} {stop : Word} (h : s.atStop stop = false) (hstep : step s = .fault f)
    (n : Nat) : runTo stop (n + 1) s = .faulted s f := by
  rw [runTo, h, if_neg Bool.false_ne_true, hstep]

/-! ### How a bounded run ends -/

/-- What holds of the end of a run: a finished run is at the stop address, a faulted one at a step that faults, and no run is
refused. -/
def RunEnd.Sound (stop : Word) : RunEnd → Prop
  | .finished u => u.atStop stop = true
  | .faulted u f => step u = .fault f
  | .unfinished _ => True
  | .refused _ _ => False

theorem runTo_sound (stop : Word) (n : Nat) (s : State) : (runTo stop n s).Sound stop := by
  induction n generalizing s with
  | zero =>
    cases h : s.atStop stop with
    | true => rw [runTo_of_atStop h]; exact h
    | false => rw [runTo_zero_of_not_atStop h]; trivial
  | succ n ih =>
    cases h : s.atStop stop with
    | true => rw [runTo_of_atStop h]; exact h
    | false =>
      cases hstep : step s with
      | next t => rw [runTo_succ_of_next h hstep]; exact ih t
      | fault f => rw [runTo_succ_of_fault h hstep]; exact hstep
      | refused r => exact absurd hstep (step_ne_refused s r)

/-- One step more changes no end but an unfinished one. -/
theorem runTo_succ_eq {stop : Word} {n : Nat} {s : State} (h : ∀ u, runTo stop n s ≠ .unfinished u) :
    runTo stop (n + 1) s = runTo stop n s := by
  induction n generalizing s with
  | zero =>
    cases hs : s.atStop stop with
    | true => rw [runTo_of_atStop hs, runTo_of_atStop hs]
    | false => exact absurd (runTo_zero_of_not_atStop hs) (h s)
  | succ n ih =>
    cases hs : s.atStop stop with
    | true => rw [runTo_of_atStop hs, runTo_of_atStop hs]
    | false =>
      cases hstep : step s with
      | next t =>
        rw [runTo_succ_of_next hs hstep] at h
        rw [runTo_succ_of_next hs hstep, runTo_succ_of_next hs hstep, ih h]
      | fault f => rw [runTo_succ_of_fault hs hstep, runTo_succ_of_fault hs hstep]
      | refused r => exact absurd hstep (step_ne_refused s r)

/-- A run that ends within a bound ends so within every larger bound. -/
theorem runTo_of_le {stop : Word} {n m : Nat} {s : State} {e : RunEnd} (hle : n ≤ m) (hend : ∀ u, e ≠ .unfinished u)
    (h : runTo stop n s = e) : runTo stop m s = e := by
  induction m, hle using Nat.le_induction with
  | base => exact h
  | succ m _ ih => rw [runTo_succ_eq (fun u hu => hend u (ih.symm.trans hu)), ih]

/-- Two bounds within which a run ends give it the same end. -/
theorem runTo_end_unique {stop : Word} {n m : Nat} {s : State} {e e' : RunEnd} (hend : ∀ u, e ≠ .unfinished u)
    (hend' : ∀ u, e' ≠ .unfinished u) (h : runTo stop n s = e) (h' : runTo stop m s = e') : e = e' :=
  (runTo_of_le (Nat.le_max_left n m) hend h).symm.trans (runTo_of_le (Nat.le_max_right n m) hend' h')

theorem atStop_of_runTo_finished {stop : Word} {n : Nat} {s u : State} (h : runTo stop n s = .finished u) :
    u.atStop stop = true := by
  have hsound := runTo_sound stop n s
  rwa [h] at hsound

theorem step_of_runTo_faulted {stop : Word} {n : Nat} {s u : State} {f : Fault} (h : runTo stop n s = .faulted u f) :
    step u = .fault f := by
  have hsound := runTo_sound stop n s
  rwa [h] at hsound

theorem runTo_ne_refused (stop : Word) (n : Nat) (s u : State) (r : Refusal) : runTo stop n s ≠ .refused u r := by
  intro h
  have hsound := runTo_sound stop n s
  rwa [h] at hsound

/-- Settles O54: each way of ending by the first step, what holds at the end, and that larger bounds keep it. -/
theorem runEndsOnceAndForAll : Obligations.RunEndsOnceAndForAll := by
  refine ⟨?atStop, ?onIllegalByte, ?goesOn, ?finished, ?faulted, ?finishedStays, ?faultedStays, ?notBoth,
    fun _ _ _ _ => atStop_of_runTo_finished, runTo_ne_refused⟩
  case atStop =>
    intro stop n s hpc hop hlow hhigh
    exact runTo_of_atStop (State.atStop_iff.mpr ⟨hpc, hop, hlow, hhigh⟩) n
  case onIllegalByte =>
    intro stop n s hrow
    exact runTo_succ_of_fault (State.not_atStop_of_lookup_none stop hrow) (unknownOpcodeWritesNoState s hrow).1 n
  case goesOn =>
    rintro stop n s hs ⟨d, hrow⟩
    obtain ⟨t, -, hstep⟩ := executeNext_ok_of_lookup_some hrow
    exact ⟨t, hstep, runTo_succ_of_next hs hstep n⟩
  case finished =>
    intro stop n s u h
    have hstop := atStop_of_runTo_finished h
    obtain ⟨hpc, hop, hlow, hhigh⟩ := State.atStop_iff.mp hstop
    exact ⟨hpc, hop, hlow, hhigh, stopAddressIsAFixedPoint u stop hstop⟩
  case faulted =>
    intro stop n s u f h
    have hstep := step_of_runTo_faulted h
    obtain ⟨hrow, hrecord⟩ := lookup_eq_none_of_step_fault hstep
    exact ⟨hrow, hrecord, hstep⟩
  case finishedStays => exact fun stop n m s u hle h => runTo_of_le hle (fun _ => nofun) h
  case faultedStays => exact fun stop n m s u f hle h => runTo_of_le hle (fun _ => nofun) h
  case notBoth =>
    intro stop n m s u v f hfaulted hfinished
    have hsame : RunEnd.faulted u f = .finished v := runTo_end_unique (fun _ => nofun) (fun _ => nofun) hfaulted hfinished
    cases hsame

end Sys2Proof.Machine
end

section
/-! SUPPORT. Proofs about the assembler (spec/30_encoding.md R70, R71): what assembles, and that an instruction written out
assembles to itself. -/

namespace Sys2Proof

/-! ### Operands -/

theorem addrValue_isSome (labels : String → Option Word) (x : SourceOperand) :
    (addrValue labels x).isSome = addrOperandOk (fun name => (labels name).isSome) x := by
  cases x with
  | number n => cases h : d16InRange n <;> simp [addrValue, addrOperandOk, h]
  | label name => rfl
  | reg r => rfl

theorem pushOf_isSome (r : RegName) : (pushOf r).isSome = pushNameOk r := by
  cases r <;> rfl

/-- A literal assembles exactly if it is in range. -/
theorem isSome_ite {α : Type} (ok : Bool) (x : α) : (if ok then some x else none).isSome = ok := by
  cases ok <;> rfl

/-- The two matches list the same written forms, so an ill-formed one falls through both. -/
theorem SourceInstr.assemble_isSome (labels : String → Option Word) (i : SourceInstr) :
    (i.assemble labels).isSome = i.wellFormed (fun name => (labels name).isSome) := by
  obtain ⟨mnemonic, operands⟩ := i
  simp only [SourceInstr.assemble]
  split
  case h_1 | h_2 | h_3 => rfl
  case h_4 r => exact pushOf_isSome r
  case h_5 | h_6 => exact isSome_ite _ _
  case h_7 x | h_8 x | h_9 x | h_10 x | h_11 x => rw [Option.isSome_map]; exact addrValue_isSome labels x
  case h_12 => simp [SourceInstr.wellFormed, *]

theorem d8InRange_toNat (v : Byte) : d8InRange v.toNat = true := decide_eq_true (Nat.le_of_lt_succ v.isLt)

theorem d16InRange_toNat (v : Word) : d16InRange v.toNat = true := decide_eq_true (Nat.le_of_lt_succ v.isLt)

theorem addrValue_toNat (labels : String → Option Word) (v : Word) : addrValue labels (.number v.toNat) = some v := by
  rw [addrValue, if_pos (d16InRange_toNat v), BitVec.ofNat_toNat, BitVec.setWidth_eq]

/-- An instruction written out assembles to itself: its operand is a literal in range, of the operand's value. -/
theorem Instr.assemble_source (labels : String → Option Word) (i : Instr) : i.source.assemble labels = some i := by
  cases i with
  | mviB v | mviC v | mviD v | mviE v | mviH v | mviL v | mviA v | mviM v =>
    simp [Instr.source, SourceInstr.assemble, d8InRange_toNat, mviOf]
  | lxiH v => simp [Instr.source, SourceInstr.assemble, d16InRange_toNat]
  | sta v | jmp v | call v | jnc v | jc v => simp [Instr.source, SourceInstr.assemble, addrValue_toNat]
  | nop | rrc | dcrM | pushB | pushD | pushH => rfl

/-- Settles O55: assembling and well-formedness go by the same forms, and an instruction's written form is one of them. -/
theorem assemblesIffWellFormed : Obligations.AssemblesIffWellFormed :=
  ⟨SourceInstr.assemble_isSome, Instr.assemble_source⟩

end Sys2Proof
end
